-- ==== Sys2Proof/Word.lean ====
section
/-! DEFINITION. The two word types and the closed names of the spec's notation (R8, R9): bytes, 16-bit words, the
eight register cells, the three register pairs, the four flags, and the eight operands an r field selects. -/

namespace Sys2Proof

/-- A byte: an unsigned 8-bit value (R8). -/
abbrev Byte := BitVec 8

/-- A word: an unsigned 16-bit value; register pairs, addresses and the program counter (R6, R8). -/
abbrev Word := BitVec 16

/-- The eight 8-bit cells of the register file (R20; C1, D9). `a` is the accumulator (D1), `f` the flags register. -/
inductive Reg where
  | a | b | c | d | e | f | h | l
  deriving DecidableEq, Repr

/-- The three declared register pairs (R24; D3). There is no AF pair (C2). -/
inductive Pair where
  | bc | de | hl
  deriving DecidableEq, Repr

/-- The four flags held in F (R27; D4): Zero, Subtract, Half-carry, Carry. -/
inductive Flag where
  | z | n | h | c
  deriving DecidableEq, Repr

/-- The eight operands the r field of XOR and BIT selects (R64): seven registers, and `memHL`, the memory byte at the
address held in HL (D6). F is not among them. -/
inductive Src where
  | b | c | d | e | h | l | memHL | a
  deriving DecidableEq, Repr

end Sys2Proof
end

