-- ==== Sys2Proof/Config.lean ====
section
/-! DEFINITION. What is fixed for the machine: the block's one open parameter, `PC_OVERFLOW` (R7). -/

namespace Sys2Proof

/-- The values of the parameter `PC_OVERFLOW` (R7): what happens when an instruction would run, or advance the program
counter, past address 65535 (R84). -/
inductive PcOverflow where
  | fault   -- the step sets `faulted` and changes nothing else
  | wrap    -- every instruction address and the next pc are taken modulo 2^16
  deriving DecidableEq, Repr

/-- The value of `PC_OVERFLOW` this machine has: the spec's default (R7, D5). DESIGN CHOICE, log 1: the source leaves the
choice open. `Machine.stepUnder` takes the parameter as an argument, so statements are made for both values. Safe: where
the original wraps, the model stops in the faulted state, which is no run's result (R88). -/
def Config.pcOverflow : PcOverflow := .fault

end Sys2Proof
end

