-- ==== Sys2Proof/Syntax.lean ====
section
/-! DEFINITION. The instructions: one constructor per row of spec/opcode_table.json, with the operands of the row's
encoding. -/

namespace Sys2Proof

/-- An instruction with its operands. The constructors stand in the order of the opcode table. `d16` is the 16-bit
immediate (R68), `op` a whole byte, `b` the bit index 0..7 (R66), `n` the bits of a no-op byte its row leaves free. -/
inductive Instr where
  /-- `LD BC,d16` (R90) -/
  | ldBC (d16 : Word)
  /-- `LD DE,d16` (R90) -/
  | ldDE (d16 : Word)
  /-- `LD HL,d16` (R90) -/
  | ldHL (d16 : Word)
  /-- `XOR B` (R95) -/
  | xorB
  /-- `XOR C` (R95) -/
  | xorC
  /-- `XOR D` (R95) -/
  | xorD
  /-- `XOR E` (R95) -/
  | xorE
  /-- `XOR H` (R95) -/
  | xorH
  /-- `XOR L` (R95) -/
  | xorL
  /-- `XOR (HL)` (R96) -/
  | xorMem
  /-- `XOR A` (R95) -/
  | xorA
  /-- The prefixed escape `CB op` (R105): `op` is the prefixed opcode, not yet decoded. -/
  | escape (op : Byte)
  /-- `BIT b,B` (R100) -/
  | bitB (b : BitVec 3)
  /-- `BIT b,C` (R100) -/
  | bitC (b : BitVec 3)
  /-- `BIT b,D` (R100) -/
  | bitD (b : BitVec 3)
  /-- `BIT b,E` (R100) -/
  | bitE (b : BitVec 3)
  /-- `BIT b,H` (R100) -/
  | bitH (b : BitVec 3)
  /-- `BIT b,L` (R100) -/
  | bitL (b : BitVec 3)
  /-- `BIT b,(HL)` (R101) -/
  | bitMem (b : BitVec 3)
  /-- `BIT b,A` (R100) -/
  | bitA (b : BitVec 3)
  /-- The prefixed no-op `CB nn`, nn in 0x00..0x3F (R106): nn = 00nnnnnn. -/
  | cbNopLow (n : BitVec 6)
  /-- The prefixed no-op `CB nn`, nn in 0x80..0xFF (R106): nn = 1nnnnnnn. -/
  | cbNopHigh (n : BitVec 7)
  /-- `NOP`, the byte 0x00 (R110) -/
  | nop
  /-- The catch-all: any other byte that no row of the primary table names (R110). -/
  | unknown (op : Byte)
  deriving DecidableEq, Repr

end Sys2Proof
end

