-- ==== Sys2Proof/WellFormed.lean ====
section
/-! DEFINITION. Which instructions are well formed. Every operand but one is a bit field of exactly its width, so every
value of it is encodable; the byte of the catch-all row must be one that no other row of the primary table names. -/

namespace Sys2Proof

/-- The byte is one of the 12 named primary opcodes (R62): a load-immediate-16, an XOR (10101rrr), or the escape. -/
def isNamedOpcode (op : Byte) : Bool :=
  op == 0x01#8 || op == 0x11#8 || op == 0x21#8 || op == 0xCB#8 || (0xA8#8 ≤ op && op ≤ 0xAF#8)

/-- The byte belongs to the catch-all row of the opcode table (R110): unnamed, and not 0x00, which has a row of its own
(`NOP`). -/
def isCatchAllOpcode (op : Byte) : Bool :=
  !isNamedOpcode op && op != 0x00#8

/-- The instruction is well formed: it has an encoding of its own row. -/
def Instr.wellFormed : Instr → Bool
  | .ldBC _ | .ldDE _ | .ldHL _ => true
  | .xorB | .xorC | .xorD | .xorE | .xorH | .xorL | .xorMem | .xorA => true
  | .escape _ => true
  | .bitB _ | .bitC _ | .bitD _ | .bitE _ | .bitH _ | .bitL _ | .bitMem _ | .bitA _ => true
  | .cbNopLow _ | .cbNopHigh _ => true
  | .nop => true
  | .unknown op => isCatchAllOpcode op

end Sys2Proof
end

