-- ==== Sys2Proof/Decode.lean ====
section
/-! DEFINITION. The two decode tables (R62, R65), the decoder over bytes, the encoder written from the encodings of the
spec (R61 to R66), and the reading of one opcode-table row's word. UNVERIFIED, log 4: the opcode values other than 0x01 are
the spec's own decisions (D1, D2, D6, D7). Unsafe if one is wrong. -/

namespace Sys2Proof

/-! ### Bytes and words -/

/-- The word with high byte `hi` and low byte `lo`: `hi ++ lo` (R8, R24, R40). -/
def wordOf (hi lo : Byte) : Word := hi ++ lo

/-- `v[15:8]` (R8). -/
def hiByte (v : Word) : Byte := v.extractLsb' 8 8

/-- `v[7:0]` (R8). -/
def loByte (v : Word) : Byte := v.extractLsb' 0 8

/-! ### The two decode tables -/

/-- What the primary table answers for a byte (R62). -/
inductive Primary where
  | loadImm16 (p : Pair)
  | xor (r : Src)
  | escape
  | unknown
  deriving DecidableEq, Repr

/-- What the prefixed table answers for a byte (R65). -/
inductive Prefixed where
  | bit (b : BitVec 3) (r : Src)
  | unknown
  deriving DecidableEq, Repr

/-- The operand an r field selects (R64). -/
def srcOfField (r : BitVec 3) : Src :=
  match r.toNat with
  | 0 => .b
  | 1 => .c
  | 2 => .d
  | 3 => .e
  | 4 => .h
  | 5 => .l
  | 6 => .memHL
  | _ => .a

/-- The pair a pp field selects; 11 selects none (R63, D7). -/
def pairOfField (pp : BitVec 2) : Option Pair :=
  match pp.toNat with
  | 0 => some .bc
  | 1 => some .de
  | 2 => some .hl
  | _ => none

/-- `decode(opcode)`: the primary decode table, total on bytes, a function of the opcode byte alone (R62, R67).
Format OI16 is `00 pp 0001`, XOR is `10101 rrr`, the escape is 0xCB (R61, R71). -/
def decodePrimary (op : Byte) : Primary :=
  if op.extractLsb' 6 2 = 0b00#2 ∧ op.extractLsb' 0 4 = 0b0001#4 then
    match pairOfField (op.extractLsb' 4 2) with
    | some p => .loadImm16 p
    | none => .unknown
  else if op.extractLsb' 3 5 = 0b10101#5 then .xor (srcOfField (op.extractLsb' 0 3))
  else if op = 0xCB#8 then .escape
  else .unknown

/-- `decode_prefixed(opcode)`: the prefixed decode table, total on bytes (R65, R66): BIT is `01 bbb rrr`. -/
def decodePrefixed (op : Byte) : Prefixed :=
  if op.extractLsb' 6 2 = 0b01#2 then .bit (op.extractLsb' 3 3) (srcOfField (op.extractLsb' 0 3))
  else .unknown

/-- The length in bytes of the instruction that begins with this byte (R60). -/
def opLength (op : Byte) : Nat :=
  match decodePrimary op with
  | .loadImm16 _ => 3
  | .escape => 2
  | .xor _ => 1
  | .unknown => 1

/-! ### From the tables to instructions -/

/-- The load-immediate-16 of a pair (R90). -/
def ldInstr (p : Pair) (d16 : Word) : Instr :=
  match p with
  | .bc => .ldBC d16
  | .de => .ldDE d16
  | .hl => .ldHL d16

/-- The XOR of an operand (R95, R96). -/
def xorInstr (r : Src) : Instr :=
  match r with
  | .b => .xorB
  | .c => .xorC
  | .d => .xorD
  | .e => .xorE
  | .h => .xorH
  | .l => .xorL
  | .memHL => .xorMem
  | .a => .xorA

/-- The bit-test of a bit of an operand (R100, R101). -/
def bitInstr (b : BitVec 3) (r : Src) : Instr :=
  match r with
  | .b => .bitB b
  | .c => .bitC b
  | .d => .bitD b
  | .e => .bitE b
  | .h => .bitH b
  | .l => .bitL b
  | .memHL => .bitMem b
  | .a => .bitA b

/-- The no-op a byte of the prefixed table's catch-all is (R106): one of the opcode table's two rows, told apart by bit 7. -/
def cbNopInstr (op : Byte) : Instr :=
  if op.getLsbD 7 then .cbNopHigh (op.extractLsb' 0 7) else .cbNopLow (op.extractLsb' 0 6)

/-- The instruction a prefixed opcode stands for (R65, R106). -/
def prefixedInstr (op : Byte) : Instr :=
  match decodePrefixed op with
  | .bit b r => bitInstr b r
  | .unknown => cbNopInstr op

/-- The instruction that the primary table reads from an opcode byte and the two bytes after it, of which it uses those of
its length (R60 to R62). The escape is left as it stands: its byte is decoded by the prefixed table when it runs (R105).
DEDUCED, log 5: the operand bytes are taken here, with the opcode, where R67 has the handler read them; the bytes are the
same, since no step writes memory (R46). Safe. -/
def decodeInstr (op b1 b2 : Byte) : Instr :=
  match decodePrimary op with
  | .loadImm16 p => ldInstr p (wordOf b2 b1)
  | .xor r => xorInstr r
  | .escape => .escape b1
  | .unknown => if op = 0x00#8 then .nop else .unknown op

/-- The instruction with an escape replaced by the instruction of the prefixed table it runs (R105). -/
def Instr.resolve : Instr → Instr
  | .escape op => prefixedInstr op
  | i => i

/-- Why a list of bytes holds no instruction. No byte value is refused (R69): only a list that ends too early is. DEDUCED,
log 14. Safe. -/
inductive DecodeError where
  /-- The list is empty. -/
  | noBytes
  /-- The list ends before the operand bytes of this opcode do. -/
  | truncated (op : Byte)
  deriving DecidableEq, Repr

/-- The first instruction of a list of bytes, through both tables, with the bytes after it. -/
def decodeBytes (bytes : List Byte) : Except DecodeError (Instr × List Byte) :=
  match bytes with
  | [] => .error .noBytes
  | op :: rest =>
    if rest.length + 1 < opLength op then .error (.truncated op)
    else .ok ((decodeInstr op (rest.getD 0 0) (rest.getD 1 0)).resolve, rest.drop (opLength op - 1))

/-! ### The encoder -/

/-- Format OI16: `00 pp 0001`, then d16 low byte first (R61, R90). -/
def encodeLd (pp : BitVec 2) (d16 : Word) : List Byte :=
  [0b00#2 ++ pp ++ 0b0001#4, loByte d16, hiByte d16]

/-- Format O with `10101 rrr` (R61, R95). -/
def encodeXor (r : BitVec 3) : List Byte := [0b10101#5 ++ r]

/-- Format P with `01 bbb rrr` in its second byte (R61, R100). -/
def encodeBit (b r : BitVec 3) : List Byte := [0xCB#8, 0b01#2 ++ b ++ r]

/-- The bytes of an instruction, in fetch order (R61 to R66). -/
def encode : Instr → List Byte
  | .ldBC d16 => encodeLd 0b00#2 d16
  | .ldDE d16 => encodeLd 0b01#2 d16
  | .ldHL d16 => encodeLd 0b10#2 d16
  | .xorB => encodeXor 0b000#3
  | .xorC => encodeXor 0b001#3
  | .xorD => encodeXor 0b010#3
  | .xorE => encodeXor 0b011#3
  | .xorH => encodeXor 0b100#3
  | .xorL => encodeXor 0b101#3
  | .xorMem => encodeXor 0b110#3
  | .xorA => encodeXor 0b111#3
  | .escape op => [0xCB#8, op]
  | .bitB b => encodeBit b 0b000#3
  | .bitC b => encodeBit b 0b001#3
  | .bitD b => encodeBit b 0b010#3
  | .bitE b => encodeBit b 0b011#3
  | .bitH b => encodeBit b 0b100#3
  | .bitL b => encodeBit b 0b101#3
  | .bitMem b => encodeBit b 0b110#3
  | .bitA b => encodeBit b 0b111#3
  | .cbNopLow n => [0xCB#8, 0b00#2 ++ n]
  | .cbNopHigh n => [0xCB#8, 0b1#1 ++ n]
  | .nop => [0x00#8]
  | .unknown op => [op]

/-! ### A word of the opcode table -/

/-- The word is one of the table's prefixed rows, which the table writes as 16 bits with byte 0 in bits 15..8 ("byte 0 ++
byte 1 (byte 0 in bits 15..8)"). Every other row is numbered from byte 0 in bits 7..0. DEDUCED, log 7. Safe. -/
def isPrefixedRowWord (nbits w : Nat) : Bool := nbits == 16 && w / 256 == 0xCB

/-- The three bytes from the address of the opcode on that a word of the table stands for; the bits above `nbits` are 0. -/
def tableBytes (nbits w : Nat) : Byte × Byte × Byte :=
  if isPrefixedRowWord nbits w then (0xCB#8, BitVec.ofNat 8 w, 0#8)
  else
    let v := w % 2 ^ nbits
    (BitVec.ofNat 8 v, BitVec.ofNat 8 (v / 256), BitVec.ofNat 8 (v / 65536))

/-- The instruction the decoder reads from a word of the opcode table. A prefixed row's word goes through both tables and
gives the prefixed instruction. A word numbered from byte 0 gives what the primary table answers, so that the row of the
escape itself, whose word holds the byte 0xCB alone, gives the escape. Never none: no encoding is illegal (R69). Log 7. -/
def decodeTableWord (nbits w : Nat) : Option Instr :=
  match tableBytes nbits w with
  | (op, b1, b2) =>
    if isPrefixedRowWord nbits w then some (decodeInstr op b1 b2).resolve else some (decodeInstr op b1 b2)

end Sys2Proof
end

