-- ==== Sys2Proof/Machine/State.lean ====
section
/-! DEFINITION. The state of the machine (R20 to R32), what can end a run, and the state after reset (R33). -/

namespace Sys2Proof.Machine

/-- Memory as plain data: (address, byte) pairs in one canonical form (`Memory.wf`), the addresses that do not read as
0x00. -/
abbrev Memory := List Host.Cell

/-- The whole architectural state (R20 to R32; R32: there is no other). The pairs BC, DE and HL are views of the cells
(R24), and the four flags are bits of `f` (R27). -/
structure State where
  /-- A, the accumulator (R20). -/
  a : Byte
  /-- B (R20). -/
  b : Byte
  /-- C (R20). -/
  c : Byte
  /-- D (R20). -/
  d : Byte
  /-- E (R20). -/
  e : Byte
  /-- F, the flags register (R27): Z N H C in bits 7..4; bits 3..0 are zero (R22). DESIGN CHOICE, log 9:
  a whole byte with that invariant, not a narrower field. Safe. -/
  f : Byte
  /-- H (R20). -/
  h : Byte
  /-- L (R20). -/
  l : Byte
  /-- The program counter (R29). -/
  pc : Word
  /-- The 65536-byte memory (R30). -/
  mem : Memory
  /-- The sticky fault state (R31, D14). -/
  faulted : Bool
  deriving DecidableEq, Repr

/-- Why a run has no result. -/
inductive Fault where
  /-- PcOverflow, the block's one fault (R11, R121). Raised by `runResult` for a run that reached the faulted state (R88),
  never by `step` or a meaning: a step that overflows goes on to the state with `faulted` set (R84). Safe: the faulted
  state is never the result of a run. -/
  | pcOverflow
  deriving DecidableEq, Repr

/-- Why the model gives an instruction no meaning. -/
inductive Refusal where
  /-- The instruction has no meaning in the model yet. No arm of `exec` raises it: every instruction has its meaning.
  Safe. -/
  | notModelled (mnemonic : String)
  deriving DecidableEq, Repr

/-- What a step or a meaning answers. -/
abbrev Result := Host.Outcome State Fault Refusal

/-- The state `new()` produces (R33, R140): every register and the pc zero, memory zero-filled (nothing listed), not
faulted. -/
def State.reset : State where
  a := 0x00#8
  b := 0x00#8
  c := 0x00#8
  d := 0x00#8
  e := 0x00#8
  f := 0x00#8
  h := 0x00#8
  l := 0x00#8
  pc := 0x0000#16
  mem := []
  faulted := false

end Sys2Proof.Machine
end

