-- ==== Sys2Proof/Machine/Ops.lean ====
section
/-! DEFINITION. The named operations: memory, register cells, register pairs, the program counter, the end of a step, and
raising the block's one fault. -/

namespace Sys2Proof.Machine

/-! ### Memory -/

/-- What an address that is not listed reads as: 0x00, the reset value of every byte (R33, R43). DESIGN CHOICE, log 2: the
list form. Safe. -/
def Memory.unlisted : Byte := 0x00#8

/-- The canonical form: addresses strictly rising and below 65536 (R30), no entry equal to what an unlisted address reads
as. Equal memories are then equal lists. -/
abbrev Memory.wf (m : Memory) : Prop :=
  m.Pairwise (fun x y => x.1 < y.1) ∧ ∀ x ∈ m, x.1 < 65536 ∧ x.2 ≠ Memory.unlisted

/-- `read(address)` (R43). -/
def Memory.read : Memory → Nat → Byte
  | [], _ => Memory.unlisted
  | (k, x) :: m, a => if a = k then x else Memory.read m a

/-- `write(address, byte)` (R43), keeping the canonical form: writing what an unlisted address reads as removes the
entry. -/
def Memory.write : Memory → Nat → Byte → Memory
  | [], a, v => if v = Memory.unlisted then [] else [(a, v)]
  | (k, x) :: m, a, v =>
    if a < k then if v = Memory.unlisted then (k, x) :: m else (a, v) :: (k, x) :: m
    else if a = k then if v = Memory.unlisted then m else (a, v) :: m
    else (k, x) :: Memory.write m a v

/-- `MemRead(a, 1)` (R10, R43): every 16-bit address exists. -/
def State.memRead (s : State) (a : Word) : Byte := s.mem.read a.toNat

/-- `MemWrite(a, 1, v)` (R10, R43). No instruction writes memory (R45): only the caller does (R143). -/
def State.memWrite (s : State) (a : Word) (v : Byte) : State := { s with mem := s.mem.write a.toNat v }

/-! ### Register cells and pairs -/

/-- `x[r]`, the register file's `read8` (R9, R21). -/
def State.read8 (s : State) (r : Reg) : Byte :=
  match r with
  | .a => s.a
  | .b => s.b
  | .c => s.c
  | .d => s.d
  | .e => s.e
  | .f => s.f
  | .h => s.h
  | .l => s.l

/-- `x[r] <- v`, the register file's `write8` (R9, R21). A write of F stores `v & 0xF0` (R23, D10). -/
def State.write8 (s : State) (r : Reg) (v : Byte) : State :=
  match r with
  | .a => { s with a := v }
  | .b => { s with b := v }
  | .c => { s with c := v }
  | .d => { s with d := v }
  | .e => { s with e := v }
  | .f => { s with f := v &&& 0xF0#8 }
  | .h => { s with h := v }
  | .l => { s with l := v }

/-- The cell that holds bits 15..8 of a pair (R24). -/
def hiReg (p : Pair) : Reg :=
  match p with
  | .bc => .b
  | .de => .d
  | .hl => .h

/-- The cell that holds bits 7..0 of a pair (R24). -/
def loReg (p : Pair) : Reg :=
  match p with
  | .bc => .c
  | .de => .e
  | .hl => .l

/-- `x16[p]`, the register file's `read16` (R9, R24). -/
def State.read16 (s : State) (p : Pair) : Word := wordOf (s.read8 (hiReg p)) (s.read8 (loReg p))

/-- `x16[p] <- v`, the register file's `write16` (R9, R25). -/
def State.write16 (s : State) (p : Pair) (v : Word) : State :=
  (s.write8 (hiReg p) (hiByte v)).write8 (loReg p) (loByte v)

/-! ### The program counter and the end of a step -/

/-- `A(k)`, the address of the k-th byte of the instruction at the program counter (R81), taken modulo 2^16. Under
`PC_OVERFLOW = fault` the step stops before any address wraps (R84). -/
def State.instrAddr (s : State) (k : Nat) : Word := s.pc + BitVec.ofNat 16 k

/-- Advance the program counter by `n` bytes (R82). -/
def State.advance (s : State) (n : Nat) : State := { s with pc := s.instrAddr n }

/-- Phase 4 of a step: the universal advance by 1, on top of the handler's own (R80, R82). Every handler ends here, and
none can fail (R87). DEDUCED, log 8: the advance is modulo 2^16 in a meaning; the overflow check is the step's (R81). Safe for
claims about steps. -/
def State.finish (s : State) : Result := .next (s.advance 1)

/-! ### The fault -/

/-- `raise Fault(PcOverflow)` (R11, R84, R124): set `faulted` and change nothing else, so that pc stays the address of the
faulting opcode (R121). There is no return: only reset clears `faulted` (R31, R125). DEDUCED, log 3: the fault is taken as
a next state. Safe where a claim about a run's end asks that it is not faulted (R88). -/
def State.raisePcOverflow (s : State) : State := { s with faulted := true }

end Sys2Proof.Machine
end

