-- ==== Sys2Proof/Machine/Flags.lean ====
section
/-! DEFINITION. The flags of F (R27) and the two flag computations (R28). -/

namespace Sys2Proof.Machine

/-- The bit of F that holds a flag (R27). UNVERIFIED, log 4: the spec's own decision (D4). Unsafe if wrong. -/
def flagPos (fl : Flag) : Nat :=
  match fl with
  | .z => 7
  | .n => 6
  | .h => 5
  | .c => 4

/-- The byte with only a flag's bit set. -/
def flagMask (fl : Flag) : Byte := 1#8 <<< flagPos fl

/-- `flag(fl)`, the register file's `get_flag` (R9, R27). -/
def State.getFlag (s : State) (fl : Flag) : Bool := s.f.getLsbD (flagPos fl)

/-- `flag(fl) <- v`, the register file's `set_flag` (R9, R27): one bit of F changes, no other. -/
def State.setFlag (s : State) (fl : Flag) (v : Bool) : State :=
  { s with f := if v then s.f ||| flagMask fl else s.f &&& ~~~flagMask fl }

/-- The flags of XOR (R95): F is cleared in full, then Z is set from the result. -/
def State.xorFlags (s : State) (res : Byte) : State := (s.write8 .f 0x00#8).setFlag .z (res == 0x00#8)

/-- The flags of BIT (R100): Z the negation of the tested bit, N 0, H 1, C untouched. -/
def State.bitFlags (s : State) (v : Byte) (b : BitVec 3) : State :=
  ((s.setFlag .z (!v.getLsbD b.toNat)).setFlag .n false).setFlag .h true

end Sys2Proof.Machine
end

