-- ==== Sys2Proof/Machine/Operands.lean ====
section
/-! DEFINITION. The operand forms of XOR and BIT (R64): a register, or the memory byte at HL. -/

namespace Sys2Proof.Machine

/-- The value of the operand an r field selects (R64): `x[r]`, or `MemRead(x16[HL], 1)` (R96, R101, D6). -/
def State.readSrc (s : State) (r : Src) : Byte :=
  match r with
  | .b => s.read8 .b
  | .c => s.read8 .c
  | .d => s.read8 .d
  | .e => s.read8 .e
  | .h => s.read8 .h
  | .l => s.read8 .l
  | .memHL => s.memRead (s.read16 .hl)
  | .a => s.read8 .a

end Sys2Proof.Machine
end

