-- ==== Sys2Proof/Machine/Bit.lean ====
section
/-! DEFINITION. Bit-test (R100, R101), the prefixed table's one family. It runs inside the step of its escape, so the
handler's own advance is the escape's, 1 (R82, R105). -/

namespace Sys2Proof.Machine

/-- `exec_bit(b, r)` (R100, R101) with the escape's own advance: flags only, no register and no memory byte is written. -/
def State.bitTest (s : State) (b : BitVec 3) (r : Src) : State := (s.bitFlags (s.readSrc r) b).advance 1

/-- `BIT b,B` (R100). -/
def execBitB (b : BitVec 3) (s : State) : Result := (s.bitTest b .b).finish

/-- `BIT b,C` (R100). -/
def execBitC (b : BitVec 3) (s : State) : Result := (s.bitTest b .c).finish

/-- `BIT b,D` (R100). -/
def execBitD (b : BitVec 3) (s : State) : Result := (s.bitTest b .d).finish

/-- `BIT b,E` (R100). -/
def execBitE (b : BitVec 3) (s : State) : Result := (s.bitTest b .e).finish

/-- `BIT b,H` (R100). -/
def execBitH (b : BitVec 3) (s : State) : Result := (s.bitTest b .h).finish

/-- `BIT b,L` (R100). -/
def execBitL (b : BitVec 3) (s : State) : Result := (s.bitTest b .l).finish

/-- `BIT b,(HL)` (R101). -/
def execBitMem (b : BitVec 3) (s : State) : Result := (s.bitTest b .memHL).finish

/-- `BIT b,A` (R100). -/
def execBitA (b : BitVec 3) (s : State) : Result := (s.bitTest b .a).finish

end Sys2Proof.Machine
end

