-- ==== Sys2Proof/Machine/Nop.lean ====
section
/-! DEFINITION. The no-ops: `NOP` and the catch-all of the primary table (R110), and the two rows of the prefixed table's
catch-all (R106). DEDUCED, log 10: the rows of the opcode table, with one effect in each table. Safe. -/

namespace Sys2Proof.Machine

/-- `skip` in the primary table (R110): no state change; the handler's own advance is 0 (R82). -/
def State.skipPrimary (s : State) : Result := s.finish

/-- `skip` inside an escape (R106): no state change; the handler's own advance is the escape's, 1 (R82, R105). -/
def State.skipPrefixed (s : State) : Result := (s.advance 1).finish

/-- `NOP`, the byte 0x00 (R110). -/
def execNop (s : State) : Result := s.skipPrimary

/-- An unknown byte (R110): a permanent silent skip (R69, D8). -/
def execUnknown (_op : Byte) (s : State) : Result := s.skipPrimary

/-- `CB nn`, nn in 0x00..0x3F (R106). -/
def execCbNopLow (_n : BitVec 6) (s : State) : Result := s.skipPrefixed

/-- `CB nn`, nn in 0x80..0xFF (R106). -/
def execCbNopHigh (_n : BitVec 7) (s : State) : Result := s.skipPrefixed

end Sys2Proof.Machine
end

