-- ==== Sys2Proof/Machine/Escape.lean ====
section
/-! DEFINITION. The prefixed escape (R105): decode the byte after it by the prefixed table, never the primary one, and run
what that table answers, within the same step. -/

namespace Sys2Proof.Machine

/-- The bit-test of an operand, dispatched on the operand (R105). -/
def execPrefixedBit (b : BitVec 3) (r : Src) (s : State) : Result :=
  match r with
  | .b => execBitB b s
  | .c => execBitC b s
  | .d => execBitD b s
  | .e => execBitE b s
  | .h => execBitH b s
  | .l => execBitL b s
  | .memHL => execBitMem b s
  | .a => execBitA b s

/-- The prefixed no-op of a byte (R106), dispatched on the table's two rows. -/
def execPrefixedNop (op : Byte) (s : State) : Result :=
  if op.getLsbD 7 then execCbNopHigh (op.extractLsb' 0 7) s else execCbNopLow (op.extractLsb' 0 6) s

/-- `exec_prefix()` with the prefixed opcode `op` (R105). The handler's own advance of 1 is in the handlers it calls.
DEDUCED, log 13. Safe. -/
def execEscape (op : Byte) (s : State) : Result :=
  match decodePrefixed op with
  | .bit b r => execPrefixedBit b r s
  | .unknown => execPrefixedNop op s

end Sys2Proof.Machine
end

