-- ==== Sys2Proof/Machine/LoadImm.lean ====
section
/-! DEFINITION. Load-immediate-16 (R90). -/

namespace Sys2Proof.Machine

/-- `exec_ld16(p)` (R90): the pair takes d16, whose bytes the decoder assembled low byte first (R40); no flag is written;
the handler's own advance is 2 (R82). -/
def State.loadImm16 (s : State) (p : Pair) (d16 : Word) : State := (s.write16 p d16).advance 2

/-- `LD BC,d16` (R90). -/
def execLdBC (d16 : Word) (s : State) : Result := (s.loadImm16 .bc d16).finish

/-- `LD DE,d16` (R90). -/
def execLdDE (d16 : Word) (s : State) : Result := (s.loadImm16 .de d16).finish

/-- `LD HL,d16` (R90). -/
def execLdHL (d16 : Word) (s : State) : Result := (s.loadImm16 .hl d16).finish

end Sys2Proof.Machine
end

