-- ==== Sys2Proof/Machine/Xor.lean ====
section
/-! DEFINITION. Logical XOR with the accumulator (R95, R96). -/

namespace Sys2Proof.Machine

/-- `exec_xor(r)` (R95, R96): A takes A ^ operand, then F is cleared and Z set from the result. The handler's own advance
is 0 (R82). -/
def State.xorA (s : State) (r : Src) : State :=
  (s.write8 .a (s.read8 .a ^^^ s.readSrc r)).xorFlags (s.read8 .a ^^^ s.readSrc r)

/-- `XOR B` (R95). -/
def execXorB (s : State) : Result := (s.xorA .b).finish

/-- `XOR C` (R95). -/
def execXorC (s : State) : Result := (s.xorA .c).finish

/-- `XOR D` (R95). -/
def execXorD (s : State) : Result := (s.xorA .d).finish

/-- `XOR E` (R95). -/
def execXorE (s : State) : Result := (s.xorA .e).finish

/-- `XOR H` (R95). -/
def execXorH (s : State) : Result := (s.xorA .h).finish

/-- `XOR L` (R95). -/
def execXorL (s : State) : Result := (s.xorA .l).finish

/-- `XOR (HL)` (R96). -/
def execXorMem (s : State) : Result := (s.xorA .memHL).finish

/-- `XOR A` (R95). -/
def execXorA (s : State) : Result := (s.xorA .a).finish

end Sys2Proof.Machine
end

