-- ==== Sys2Proof/Machine/Dispatch.lean ====
section
/-! DEFINITION. The dispatch from instructions to their meanings (R80, R87): one arm per constructor. -/

namespace Sys2Proof.Machine

/-- The effect of an instruction, with its advance of the program counter (R12). -/
def exec (i : Instr) (s : State) : Host.Outcome State Fault Refusal :=
  match i with
  | .ldBC d16 => Sys2Proof.Machine.execLdBC d16 s
  | .ldDE d16 => Sys2Proof.Machine.execLdDE d16 s
  | .ldHL d16 => Sys2Proof.Machine.execLdHL d16 s
  | .xorB => Sys2Proof.Machine.execXorB s
  | .xorC => Sys2Proof.Machine.execXorC s
  | .xorD => Sys2Proof.Machine.execXorD s
  | .xorE => Sys2Proof.Machine.execXorE s
  | .xorH => Sys2Proof.Machine.execXorH s
  | .xorL => Sys2Proof.Machine.execXorL s
  | .xorMem => Sys2Proof.Machine.execXorMem s
  | .xorA => Sys2Proof.Machine.execXorA s
  | .escape op => Sys2Proof.Machine.execEscape op s
  | .bitB b => Sys2Proof.Machine.execBitB b s
  | .bitC b => Sys2Proof.Machine.execBitC b s
  | .bitD b => Sys2Proof.Machine.execBitD b s
  | .bitE b => Sys2Proof.Machine.execBitE b s
  | .bitH b => Sys2Proof.Machine.execBitH b s
  | .bitL b => Sys2Proof.Machine.execBitL b s
  | .bitMem b => Sys2Proof.Machine.execBitMem b s
  | .bitA b => Sys2Proof.Machine.execBitA b s
  | .cbNopLow n => Sys2Proof.Machine.execCbNopLow n s
  | .cbNopHigh n => Sys2Proof.Machine.execCbNopHigh n s
  | .nop => Sys2Proof.Machine.execNop s
  | .unknown op => Sys2Proof.Machine.execUnknown op s

end Sys2Proof.Machine
end

