-- ==== Sys2Proof/Machine/Fetch.lean ====
section
/-! DEFINITION. Fetching the instruction at the program counter (R41, R80), its length, the top-of-memory check (R84), and
the memory a step reads (R45). -/

namespace Sys2Proof.Machine

/-- The k-th byte of the instruction at the program counter: `MemRead(A(k), 1)` (R41, R81). -/
def State.fetchByte (s : State) (k : Nat) : Byte := s.memRead (s.instrAddr k)

/-- The instruction at the program counter, as the primary table reads it (R62, R81). Bytes past the instruction's length
are not used (R60), and reading them has no effect (R44). -/
def State.fetchInstr (s : State) : Instr := decodeInstr (s.fetchByte 0) (s.fetchByte 1) (s.fetchByte 2)

/-- The length of the instruction at the program counter (R60, R81). -/
def State.instrLength (s : State) : Nat := opLength (s.fetchByte 0)

/-- The instruction at the program counter overflows: pc0 + len > 0xFFFF, on unbounded naturals (R8, R84). -/
def State.overflows (s : State) : Bool := 0xFFFF < s.pc.toNat + s.instrLength

/-- The address an operand is read from in memory: HL for the (HL) form, none for a register (R45, R64). -/
def State.srcReads (s : State) (r : Src) : List Word :=
  match r with
  | .memHL => [s.read16 .hl]
  | .b | .c | .d | .e | .h | .l | .a => []

/-- The addresses a step reads, in order: the table of R45. -/
def State.stepReads (s : State) : List Word :=
  match decodePrimary (s.fetchByte 0) with
  | .loadImm16 _ => [s.instrAddr 0, s.instrAddr 1, s.instrAddr 2]
  | .xor r => s.instrAddr 0 :: s.srcReads r
  | .escape =>
    match decodePrefixed (s.fetchByte 1) with
    | .bit _ r => s.instrAddr 0 :: s.instrAddr 1 :: s.srcReads r
    | .unknown => [s.instrAddr 0, s.instrAddr 1]
  | .unknown => [s.instrAddr 0]

/-- Store three bytes at the program counter and the two addresses after it. -/
def State.placeAtPc (s : State) (bytes : Byte × Byte × Byte) : State :=
  ((s.memWrite (s.instrAddr 0) bytes.1).memWrite (s.instrAddr 1) bytes.2.1).memWrite (s.instrAddr 2) bytes.2.2

end Sys2Proof.Machine
end

