-- ==== Sys2Proof/Machine/Cycle.lean ====
section
/-! DEFINITION. One step under either value of `PC_OVERFLOW` (R80, R81, R84). -/

namespace Sys2Proof.Machine

/-- `step()` as R81 writes it, with `PC_OVERFLOW` as an argument. In the faulted state nothing changes (R124). Under
`fault` an instruction that overflows raises PcOverflow before any effect (R84, R123). Otherwise the fetched instruction
runs; under `wrap` the addresses A(k) and the next pc are modulo 2^16. -/
def stepUnder (p : PcOverflow) (s : State) : Result :=
  if s.faulted then .next s
  else if p = .fault ∧ s.overflows then .next s.raisePcOverflow
  else exec s.fetchInstr s

end Sys2Proof.Machine
end

