-- ==== Sys2Proof/Machine/Step.lean ====
section
/-! DEFINITION. The machine's step, at the configured value of `PC_OVERFLOW`, and placing a word of the opcode table where
the next step fetches. -/

namespace Sys2Proof.Machine

/-- One step (R13, R81), at `Config.pcOverflow` (R7). -/
def step (s : State) : Host.Outcome State Fault Refusal := stepUnder Config.pcOverflow s

/-- `s` with the instruction of an opcode-table word stored at the program counter, as the caller's byte writes would store
it (R142, R143). Nothing but memory changes: a faulted state stays faulted (R31). DEDUCED, log 6 and log 7. Safe. -/
def State.withFetchWord (s : State) (nbits w : Nat) : State := s.placeAtPc (tableBytes nbits w)

end Sys2Proof.Machine
end

