-- ==== Sys2Proof/Machine/Caller.lean ====
section
/-! DEFINITION. What the caller (the spec's host) does between steps (R16, R143), and runs (R88). -/

namespace Sys2Proof.Machine

/-- The caller's interactions, the rows of R143. There is none that writes a register, a flag or pc, and none inside a step
(R143, D12). DEDUCED, log 12: unsafe for claims about reachable states if a real host pokes registers. -/
inductive CallerAction where
  /-- Calls `new()`. -/
  | construct
  /-- Writes a byte of memory. -/
  | writeByte (a : Word) (v : Byte)
  /-- Calls `step()`. -/
  | callStep
  /-- Reads the state. -/
  | observe
  /-- Stops calling `step()`. -/
  | stop
  deriving DecidableEq, Repr

/-- What the block does at an interaction (R143). -/
def actUnder (p : PcOverflow) (act : CallerAction) (s : State) : Result :=
  match act with
  | .construct => .next State.reset
  | .writeByte a v => .next (s.memWrite a v)
  | .callStep => stepUnder p s
  | .observe => .next s
  | .stop => .next s

/-- The interactions of a list, in order (R48). -/
def actsUnder (p : PcOverflow) : List CallerAction → State → Result
  | [], s => .next s
  | act :: acts, s =>
    match actUnder p act s with
    | .next t => actsUnder p acts t
    | .fault r => .fault r
    | .refused r => .refused r

/-- `n` calls of `step()` (R88). -/
def runUnder (p : PcOverflow) : Nat → State → Result
  | 0, s => .next s
  | n + 1, s =>
    match stepUnder p s with
    | .next t => runUnder p n t
    | .fault r => .fault r
    | .refused r => .refused r

/-- The result of a run of `n` steps: the state after the n-th call, and none for a run that reached the faulted state
(R88, R124). DEDUCED, log 11. Safe. -/
def runResult (p : PcOverflow) (n : Nat) (s : State) : Result :=
  match runUnder p n s with
  | .next t => if t.faulted then .fault .pcOverflow else .next t
  | .fault r => .fault r
  | .refused r => .refused r

end Sys2Proof.Machine
end

