-- ==== Sys2Proof/Machine/SourceStep.lean ====
section
/-! DEFINITION. The step in the source's own order (R67, R80 to R83, R90, R105): the primary decoder sees the opcode byte
alone, each handler fetches its operand bytes itself and moves the program counter as it does so, and phase 4 adds 1.
`stepUnder` is the model's step; an obligation states that the two agree, so where operand bytes are read is not
observable (R83). -/

namespace Sys2Proof.Machine

/-- Load-immediate-16 as a handler (R90): "read the next memory byte as the low byte", advance, "read the following memory
byte as the high byte", advance. -/
def State.handleLd16 (s : State) (p : Pair) : State :=
  let lo := s.memRead (s.instrAddr 1)
  let s1 := s.advance 1
  let hi := s1.memRead (s1.instrAddr 1)
  (s1.advance 1).write16 p (wordOf hi lo)

/-- The escape as a handler (R105): "advances the program counter by 1 to consume the escape opcode, reads the next byte as
the prefixed opcode, decodes it via the prefixed table", and runs the bit-test or the no-op. -/
def State.handleEscape (s : State) : State :=
  let s1 := s.advance 1
  match decodePrefixed (s1.memRead s1.pc) with
  | .bit b r => s1.bitFlags (s1.readSrc r) b
  | .unknown => s1

/-- Phases 2 and 3: classify the opcode byte and run one handler (R80, R87). -/
def State.handle (s : State) : State :=
  match decodePrimary (s.memRead s.pc) with
  | .loadImm16 p => s.handleLd16 p
  | .xor r => s.xorA r
  | .escape => s.handleEscape
  | .unknown => s

/-- The whole step (R81): the faulted guard, the length check, the handler, and the universal advance by 1. -/
def sourceStep (p : PcOverflow) (s : State) : Result :=
  if s.faulted then .next s
  else if p = .fault ∧ 0xFFFF < s.pc.toNat + opLength (s.memRead s.pc) then .next s.raisePcOverflow
  else s.handle.finish

end Sys2Proof.Machine
end

