-- ==== Sys2Proof/Safety.lean ====
section
/-! DEFINITION. The terms claims are stated in: the invariant, reachable states, safe runs, what a step leaves unchanged,
and the effects of the instruction families as the spec's rules word them. -/

namespace Sys2Proof.Machine

/-! ### Invariant, reachability, safe runs -/

/-- The invariant of the machine: bits 3..0 of F are zero (R22), and memory keeps its canonical form, which is the model's
choice of representation (DESIGN CHOICE, log 2). -/
abbrev State.Inv (s : State) : Prop := s.f &&& 0x0F#8 = 0x00#8 ∧ s.mem.wf

/-- A state reached from reset by the caller's interactions (R34, R143). -/
def Reachable (p : PcOverflow) (s : State) : Prop := ∃ acts, actsUnder p acts State.reset = .next s

/-- F holds one of the four values a program can reach (R34). -/
abbrev HasReachableFlags (s : State) : Prop := s.read8 .f ∈ [0x00#8, 0x20#8, 0x80#8, 0xA0#8]

/-- A run of `n` steps from `s` is safe: it has a result (R88). -/
def SafeRun (p : PcOverflow) (n : Nat) (s : State) : Prop := ∃ t, runResult p n s = .next t

/-! ### What stays unchanged -/

/-- Every cell outside the list keeps its value. -/
def KeepsCells (s t : State) (except : List Reg) : Prop := ∀ r, r ∉ except → t.read8 r = s.read8 r

/-- Every flag outside the list keeps its value. -/
def KeepsFlags (s t : State) (except : List Flag) : Prop := ∀ fl, fl ∉ except → t.getFlag fl = s.getFlag fl

/-- Bits 3..0 of F, which hold no flag (R27), are as they were. -/
def KeepsLowNibble (s t : State) : Prop := t.read8 .f &&& 0x0F#8 = s.read8 .f &&& 0x0F#8

/-- Every byte of memory reads as before. -/
def KeepsMemory (s t : State) : Prop := ∀ a : Word, t.memRead a = s.memRead a

/-! ### The effects the rules state -/

/-- The seven values of the r field that select a register, with the register (R64). -/
def regFields : List (BitVec 3 × Reg) :=
  [(0b000#3, .b), (0b001#3, .c), (0b010#3, .d), (0b011#3, .e), (0b100#3, .h), (0b101#3, .l), (0b111#3, .a)]

/-- The three load-immediate-16 opcodes, with the pair each loads (R62, R63). -/
def ldOpcodes : List (Byte × Pair) := [(0x01#8, .bc), (0x11#8, .de), (0x21#8, .hl)]

/-- The effect of load-immediate-16 (R90): the pair takes the word, no other cell (F among them) and no memory byte
changes, and the pc moves by 3. -/
def LoadsPair (p : Pair) (d16 : Word) (s : State) (o : Result) : Prop :=
  ∃ t, o = .next t ∧ t.read16 p = d16 ∧ KeepsCells s t [hiReg p, loReg p] ∧ KeepsMemory s t ∧ t.faulted = s.faulted ∧
    t.pc = s.pc + 3#16

/-- The effect of XOR with the operand value `v` (R95, R96): A takes A ^ v, F is 0x80 if that is 0 and 0x00 otherwise, no
other cell and no memory byte changes, and the pc moves by 1. -/
def XorsIntoA (v : Byte) (s : State) (o : Result) : Prop :=
  ∃ t, o = .next t ∧ t.read8 .a = s.read8 .a ^^^ v ∧
    t.read8 .f = (if s.read8 .a ^^^ v = 0x00#8 then 0x80#8 else 0x00#8) ∧
    t.getFlag .z = (s.read8 .a ^^^ v == 0x00#8) ∧ t.getFlag .n = false ∧ t.getFlag .h = false ∧ t.getFlag .c = false ∧
    KeepsCells s t [.a, .f] ∧ KeepsMemory s t ∧ t.faulted = s.faulted ∧ t.pc = s.pc + 1#16

/-- The effect of BIT on bit `b` of the operand value `v` (R100, R101): Z the negation of the bit, N 0, H 1, C and bits 3..0
of F kept; F = (Z << 7) | 0x20 | (C << 4) where bits 3..0 of F were zero (R22); no cell but F and no memory byte changes,
and the pc moves by 2. -/
def TestsBit (v : Byte) (b : BitVec 3) (s : State) (o : Result) : Prop :=
  ∃ t, o = .next t ∧ t.getFlag .z = !v.getLsbD b.toNat ∧ t.getFlag .n = false ∧ t.getFlag .h = true ∧
    KeepsFlags s t [.z, .n, .h] ∧ KeepsLowNibble s t ∧
    (s.f &&& 0x0F#8 = 0x00#8 →
      t.read8 .f = (if v.getLsbD b.toNat then 0x00#8 else 0x80#8) ||| 0x20#8 ||| (if s.getFlag .c then 0x10#8 else 0x00#8)) ∧
    KeepsCells s t [.f] ∧ KeepsMemory s t ∧ t.faulted = s.faulted ∧ t.pc = s.pc + 2#16

/-- The effect of a no-op of `n` bytes (R106, R110): only the pc changes. -/
def SkipsBytes (n : Nat) (s : State) (o : Result) : Prop := o = .next { s with pc := s.pc + BitVec.ofNat 16 n }

/-- A step whose instruction has length `len`: under `fault`, past the top of memory, only `faulted` changes (R84, R121);
otherwise the effect `eff` of the step holds. -/
def StepOr (p : PcOverflow) (len : Nat) (s : State) (eff : Result → Prop) : Prop :=
  (p = .fault → 0xFFFF < s.pc.toNat + len → stepUnder p s = .next { s with faulted := true }) ∧
  ((p = .wrap ∨ s.pc.toNat + len ≤ 0xFFFF) → eff (stepUnder p s))

end Sys2Proof.Machine
end

