-- ==== Sys2Proof/Laws/State.lean ====
section
/-! SUPPORT. The small lemmas of the state: what each named update does to each field, and the views of the cells. -/

namespace Sys2Proof.Machine

/-! ### Bytes and words -/

theorem getLsbD_wordOf (hi lo : Byte) (i : Nat) :
    (wordOf hi lo).getLsbD i = if i < 8 then lo.getLsbD i else hi.getLsbD (i - 8) :=
  BitVec.getLsbD_append

theorem getLsbD_hiByte (v : Word) (i : Nat) : (hiByte v).getLsbD i = (decide (i < 8) && v.getLsbD (8 + i)) := by
  simp [hiByte]

theorem getLsbD_loByte (v : Word) (i : Nat) : (loByte v).getLsbD i = (decide (i < 8) && v.getLsbD i) := by
  simp [loByte]

@[simp] theorem hiByte_wordOf (hi lo : Byte) : hiByte (wordOf hi lo) = hi := by
  apply BitVec.eq_of_getLsbD_eq
  intro i h
  rw [getLsbD_hiByte, getLsbD_wordOf]
  simp [h]

@[simp] theorem loByte_wordOf (hi lo : Byte) : loByte (wordOf hi lo) = lo := by
  apply BitVec.eq_of_getLsbD_eq
  intro i h
  rw [getLsbD_loByte, getLsbD_wordOf]
  simp [h]

@[simp] theorem wordOf_hiByte_loByte (v : Word) : wordOf (hiByte v) (loByte v) = v := by
  apply BitVec.eq_of_getLsbD_eq
  intro i h
  rw [getLsbD_wordOf, getLsbD_hiByte, getLsbD_loByte]
  split
  · simp_all
  · rw [show 8 + (i - 8) = i by omega]
    simp; omega

/-! ### Register cells -/

section Cells
variable (s : State) (v : Byte)

@[simp] theorem read8_a : s.read8 .a = s.a := rfl
@[simp] theorem read8_b : s.read8 .b = s.b := rfl
@[simp] theorem read8_c : s.read8 .c = s.c := rfl
@[simp] theorem read8_d : s.read8 .d = s.d := rfl
@[simp] theorem read8_e : s.read8 .e = s.e := rfl
@[simp] theorem read8_f : s.read8 .f = s.f := rfl
@[simp] theorem read8_h : s.read8 .h = s.h := rfl
@[simp] theorem read8_l : s.read8 .l = s.l := rfl

@[simp] theorem write8_a : s.write8 .a v = { s with a := v } := rfl
@[simp] theorem write8_b : s.write8 .b v = { s with b := v } := rfl
@[simp] theorem write8_c : s.write8 .c v = { s with c := v } := rfl
@[simp] theorem write8_d : s.write8 .d v = { s with d := v } := rfl
@[simp] theorem write8_e : s.write8 .e v = { s with e := v } := rfl
@[simp] theorem write8_f : s.write8 .f v = { s with f := v &&& 0xF0#8 } := rfl
@[simp] theorem write8_h : s.write8 .h v = { s with h := v } := rfl
@[simp] theorem write8_l : s.write8 .l v = { s with l := v } := rfl

@[simp] theorem write8_pc (r : Reg) : (s.write8 r v).pc = s.pc := by cases r <;> rfl
@[simp] theorem write8_mem (r : Reg) : (s.write8 r v).mem = s.mem := by cases r <;> rfl
@[simp] theorem write8_faulted (r : Reg) : (s.write8 r v).faulted = s.faulted := by cases r <;> rfl

end Cells

/-! ### Register pairs -/

section Pairs
variable (s : State) (v : Word)

@[simp] theorem read16_bc : s.read16 .bc = wordOf s.b s.c := rfl
@[simp] theorem read16_de : s.read16 .de = wordOf s.d s.e := rfl
@[simp] theorem read16_hl : s.read16 .hl = wordOf s.h s.l := rfl

@[simp] theorem write16_bc : s.write16 .bc v = { s with b := hiByte v, c := loByte v } := rfl
@[simp] theorem write16_de : s.write16 .de v = { s with d := hiByte v, e := loByte v } := rfl
@[simp] theorem write16_hl : s.write16 .hl v = { s with h := hiByte v, l := loByte v } := rfl

@[simp] theorem write16_f (p : Pair) : (s.write16 p v).f = s.f := by cases p <;> rfl
@[simp] theorem write16_pc (p : Pair) : (s.write16 p v).pc = s.pc := by cases p <;> rfl
@[simp] theorem write16_mem (p : Pair) : (s.write16 p v).mem = s.mem := by cases p <;> rfl
@[simp] theorem write16_faulted (p : Pair) : (s.write16 p v).faulted = s.faulted := by cases p <;> rfl

end Pairs

/-! ### The program counter -/

section Pc
variable (s : State) (n : Nat)

@[simp] theorem advance_a : (s.advance n).a = s.a := rfl
@[simp] theorem advance_b : (s.advance n).b = s.b := rfl
@[simp] theorem advance_c : (s.advance n).c = s.c := rfl
@[simp] theorem advance_d : (s.advance n).d = s.d := rfl
@[simp] theorem advance_e : (s.advance n).e = s.e := rfl
@[simp] theorem advance_f : (s.advance n).f = s.f := rfl
@[simp] theorem advance_h : (s.advance n).h = s.h := rfl
@[simp] theorem advance_l : (s.advance n).l = s.l := rfl
@[simp] theorem advance_pc : (s.advance n).pc = s.instrAddr n := rfl
@[simp] theorem advance_mem : (s.advance n).mem = s.mem := rfl
@[simp] theorem advance_faulted : (s.advance n).faulted = s.faulted := rfl

/-- Two advances add: the handler's own and the universal one (R82). -/
theorem advance_advance (m : Nat) : (s.advance m).advance n = s.advance (m + n) := by
  simp [State.advance, State.instrAddr, BitVec.ofNat_add, BitVec.add_assoc]

end Pc

/-! ### Memory -/

section Mem
variable (s : State) (x : Word) (v : Byte)

@[simp] theorem memWrite_a : (s.memWrite x v).a = s.a := rfl
@[simp] theorem memWrite_b : (s.memWrite x v).b = s.b := rfl
@[simp] theorem memWrite_c : (s.memWrite x v).c = s.c := rfl
@[simp] theorem memWrite_d : (s.memWrite x v).d = s.d := rfl
@[simp] theorem memWrite_e : (s.memWrite x v).e = s.e := rfl
@[simp] theorem memWrite_f : (s.memWrite x v).f = s.f := rfl
@[simp] theorem memWrite_h : (s.memWrite x v).h = s.h := rfl
@[simp] theorem memWrite_l : (s.memWrite x v).l = s.l := rfl
@[simp] theorem memWrite_pc : (s.memWrite x v).pc = s.pc := rfl
@[simp] theorem memWrite_mem : (s.memWrite x v).mem = s.mem.write x.toNat v := rfl
@[simp] theorem memWrite_faulted : (s.memWrite x v).faulted = s.faulted := rfl

end Mem

/-! ### The fault -/

section Fault
variable (s : State)

@[simp] theorem raisePcOverflow_a : s.raisePcOverflow.a = s.a := rfl
@[simp] theorem raisePcOverflow_b : s.raisePcOverflow.b = s.b := rfl
@[simp] theorem raisePcOverflow_c : s.raisePcOverflow.c = s.c := rfl
@[simp] theorem raisePcOverflow_d : s.raisePcOverflow.d = s.d := rfl
@[simp] theorem raisePcOverflow_e : s.raisePcOverflow.e = s.e := rfl
@[simp] theorem raisePcOverflow_f : s.raisePcOverflow.f = s.f := rfl
@[simp] theorem raisePcOverflow_h : s.raisePcOverflow.h = s.h := rfl
@[simp] theorem raisePcOverflow_l : s.raisePcOverflow.l = s.l := rfl
@[simp] theorem raisePcOverflow_pc : s.raisePcOverflow.pc = s.pc := rfl
@[simp] theorem raisePcOverflow_mem : s.raisePcOverflow.mem = s.mem := rfl
@[simp] theorem raisePcOverflow_faulted : s.raisePcOverflow.faulted = true := rfl

end Fault

/-! ### Flags -/

section Flags
variable (s : State) (fl : Flag) (v : Bool)

@[simp] theorem setFlag_a : (s.setFlag fl v).a = s.a := rfl
@[simp] theorem setFlag_b : (s.setFlag fl v).b = s.b := rfl
@[simp] theorem setFlag_c : (s.setFlag fl v).c = s.c := rfl
@[simp] theorem setFlag_d : (s.setFlag fl v).d = s.d := rfl
@[simp] theorem setFlag_e : (s.setFlag fl v).e = s.e := rfl
@[simp] theorem setFlag_h : (s.setFlag fl v).h = s.h := rfl
@[simp] theorem setFlag_l : (s.setFlag fl v).l = s.l := rfl
@[simp] theorem setFlag_pc : (s.setFlag fl v).pc = s.pc := rfl
@[simp] theorem setFlag_mem : (s.setFlag fl v).mem = s.mem := rfl
@[simp] theorem setFlag_faulted : (s.setFlag fl v).faulted = s.faulted := rfl

/-- Everything `xorFlags` does (R95): F is 0x80 or 0x00, whatever it was. -/
theorem xorFlags_eq (res : Byte) : s.xorFlags res = { s with f := if res = 0x00#8 then 0x80#8 else 0x00#8 } := by
  by_cases h : res = 0x00#8 <;> simp [State.xorFlags, State.setFlag, flagMask, flagPos, State.write8, h]

/-- Everything `bitFlags` does (R100): bits 7..5 of F are written, bits 4..0 stay. -/
theorem bitFlags_eq (x : Byte) (b : BitVec 3) :
    s.bitFlags x b =
      { s with f := (if x.getLsbD b.toNat then 0x00#8 else 0x80#8) ||| 0x20#8 ||| (s.f &&& 0x1F#8) } := by
  have key : ∀ f : Byte,
      ((f ||| 0x80#8) &&& 0xBF#8) ||| 0x20#8 = 0x80#8 ||| 0x20#8 ||| (f &&& 0x1F#8) ∧
      ((f &&& 0x7F#8) &&& 0xBF#8) ||| 0x20#8 = 0x00#8 ||| 0x20#8 ||| (f &&& 0x1F#8) := by decide
  cases hb : x.getLsbD b.toNat
  · simpa [State.bitFlags, State.setFlag, flagMask, flagPos, hb] using (key s.f).1
  · simpa [State.bitFlags, State.setFlag, flagMask, flagPos, hb] using (key s.f).2

end Flags

end Sys2Proof.Machine
end

