-- ==== Sys2Proof/Laws/Decode.lean ====
section
/-! SUPPORT. The decode tables on the bytes of the encodings, and the families of instructions. -/

namespace Sys2Proof

/-- A load-immediate-16 byte names its pair; pp = 11 names none (R63). -/
theorem decodePrimary_ld : ∀ pp : BitVec 2, decodePrimary (0b00#2 ++ pp ++ 0b0001#4) =
    match pairOfField pp with
    | some p => .loadImm16 p
    | none => .unknown := by decide

/-- An XOR byte names its operand (R64). -/
theorem decodePrimary_xor : ∀ r : BitVec 3, decodePrimary (0b10101#5 ++ r) = .xor (srcOfField r) := by decide

/-- The escape byte (R71). -/
@[simp] theorem decodePrimary_escape : decodePrimary 0xCB#8 = .escape := by decide

@[simp] theorem opLength_escape : opLength 0xCB#8 = 2 := by decide

/-- A BIT byte of the prefixed table names its bit and operand (R65, R66). -/
theorem decodePrefixed_bit (b r : BitVec 3) : decodePrefixed (0b01#2 ++ b ++ r) = .bit b (srcOfField r) := by
  revert b r; decide

/-- An instruction is between one and three bytes long (R60). -/
theorem opLength_bounds (op : Byte) : 1 ≤ opLength op ∧ opLength op ≤ 3 := by
  unfold opLength; split <;> decide

@[simp] theorem ldInstr_bc (d16 : Word) : ldInstr .bc d16 = .ldBC d16 := rfl
@[simp] theorem ldInstr_de (d16 : Word) : ldInstr .de d16 = .ldDE d16 := rfl
@[simp] theorem ldInstr_hl (d16 : Word) : ldInstr .hl d16 = .ldHL d16 := rfl

/-- Only the escape is resolved (R105). -/
@[simp] theorem resolve_ldInstr (p : Pair) (d16 : Word) : (ldInstr p d16).resolve = ldInstr p d16 := by
  cases p <;> rfl
@[simp] theorem resolve_xorInstr (r : Src) : (xorInstr r).resolve = xorInstr r := by cases r <;> rfl
@[simp] theorem resolve_escape (op : Byte) : (Instr.escape op).resolve = prefixedInstr op := rfl

/-- Every instruction is of one of the families of R3. -/
theorem instr_family (i : Instr) :
    (∃ p d16, i = ldInstr p d16) ∨ (∃ r, i = xorInstr r) ∨ (∃ b r, i = bitInstr b r) ∨ (∃ n, i = .cbNopLow n) ∨
    (∃ n, i = .cbNopHigh n) ∨ i = .nop ∨ (∃ op, i = .unknown op) ∨ ∃ op, i = .escape op := by
  cases i
  case ldBC d16 => exact .inl ⟨.bc, d16, rfl⟩
  case ldDE d16 => exact .inl ⟨.de, d16, rfl⟩
  case ldHL d16 => exact .inl ⟨.hl, d16, rfl⟩
  case xorB => exact .inr (.inl ⟨.b, rfl⟩)
  case xorC => exact .inr (.inl ⟨.c, rfl⟩)
  case xorD => exact .inr (.inl ⟨.d, rfl⟩)
  case xorE => exact .inr (.inl ⟨.e, rfl⟩)
  case xorH => exact .inr (.inl ⟨.h, rfl⟩)
  case xorL => exact .inr (.inl ⟨.l, rfl⟩)
  case xorMem => exact .inr (.inl ⟨.memHL, rfl⟩)
  case xorA => exact .inr (.inl ⟨.a, rfl⟩)
  case bitB b => exact .inr (.inr (.inl ⟨b, .b, rfl⟩))
  case bitC b => exact .inr (.inr (.inl ⟨b, .c, rfl⟩))
  case bitD b => exact .inr (.inr (.inl ⟨b, .d, rfl⟩))
  case bitE b => exact .inr (.inr (.inl ⟨b, .e, rfl⟩))
  case bitH b => exact .inr (.inr (.inl ⟨b, .h, rfl⟩))
  case bitL b => exact .inr (.inr (.inl ⟨b, .l, rfl⟩))
  case bitMem b => exact .inr (.inr (.inl ⟨b, .memHL, rfl⟩))
  case bitA b => exact .inr (.inr (.inl ⟨b, .a, rfl⟩))
  all_goals simp

end Sys2Proof
end

