-- ==== Sys2Proof/Laws/Exec.lean ====
section
/-! SUPPORT. What each shared operation of the meanings answers, each instruction's meaning as an equation, and the cases
of a step. -/

namespace Sys2Proof.Machine

/-! ### The shared operations -/

/-- Phase 4 always completes (R87). -/
theorem finish_eq (s : State) : s.finish = .next (s.advance 1) := rfl

/-- Load-immediate-16 completes (R90). -/
theorem loadImm16_finish (s : State) (p : Pair) (d16 : Word) :
    (s.loadImm16 p d16).finish = .next ((s.write16 p d16).advance 3) := by
  simp [State.loadImm16, finish_eq, advance_advance]

/-- XOR completes (R95, R96). -/
theorem xorA_finish (s : State) (r : Src) :
    (s.xorA r).finish =
      .next { s with
        a := s.a ^^^ s.readSrc r
        f := if s.a ^^^ s.readSrc r = 0x00#8 then 0x80#8 else 0x00#8
        pc := s.instrAddr 1 } := by
  simp [State.xorA, xorFlags_eq, finish_eq, State.advance, State.instrAddr]

/-- BIT completes (R100, R101). -/
theorem bitTest_finish (s : State) (b : BitVec 3) (r : Src) :
    (s.bitTest b r).finish =
      .next { s with
        f := (if (s.readSrc r).getLsbD b.toNat then 0x00#8 else 0x80#8) ||| 0x20#8 ||| (s.f &&& 0x1F#8)
        pc := s.instrAddr 2 } := by
  rw [State.bitTest, finish_eq, advance_advance, bitFlags_eq]
  rfl

/-- A no-op of the primary table completes (R110). -/
theorem skipPrimary_eq (s : State) : s.skipPrimary = .next (s.advance 1) := rfl

/-- A no-op of the prefixed table completes (R106). -/
theorem skipPrefixed_eq (s : State) : s.skipPrefixed = .next (s.advance 2) := by
  simp [State.skipPrefixed, finish_eq, advance_advance]

/-! ### The meanings over the shared operations -/

section Meanings
variable (s : State)

theorem exec_ldInstr (p : Pair) (d16 : Word) : exec (ldInstr p d16) s = (s.loadImm16 p d16).finish := by
  cases p <;> rfl

theorem exec_xorInstr (r : Src) : exec (xorInstr r) s = (s.xorA r).finish := by
  cases r <;> rfl

theorem exec_bitInstr (b : BitVec 3) (r : Src) : exec (bitInstr b r) s = (s.bitTest b r).finish := by
  cases r <;> rfl

theorem execPrefixedBit_eq (b : BitVec 3) (r : Src) : execPrefixedBit b r s = (s.bitTest b r).finish := by
  cases r <;> rfl

theorem execPrefixedNop_eq (op : Byte) : execPrefixedNop op s = s.skipPrefixed := by
  unfold execPrefixedNop; split <;> rfl

theorem exec_cbNopInstr (op : Byte) : exec (cbNopInstr op) s = s.skipPrefixed := by
  unfold cbNopInstr; split <;> rfl

theorem exec_unknown (op : Byte) : exec (.unknown op) s = s.skipPrimary := rfl

theorem exec_nop : exec .nop s = s.skipPrimary := rfl

/-- Everything the escape can do (R105): run the bit-test the prefixed table gives its byte, or skip. -/
theorem execEscape_cases (op : Byte) :
    (∃ b r, decodePrefixed op = .bit b r ∧ execEscape op s = (s.bitTest b r).finish) ∨
    (decodePrefixed op = .unknown ∧ execEscape op s = s.skipPrefixed) := by
  unfold execEscape
  cases decodePrefixed op with
  | bit b r => exact .inl ⟨b, r, rfl, execPrefixedBit_eq s b r⟩
  | unknown => exact .inr ⟨rfl, execPrefixedNop_eq s op⟩

/-- Everything an instruction can do, in every state: load a pair, XOR into A, test a bit, or move the pc by its length. It
always completes (R87). -/
theorem exec_cases (i : Instr) :
    (∃ p d16, i = ldInstr p d16 ∧ exec i s = .next ((s.write16 p d16).advance 3)) ∨
    (∃ r, i = xorInstr r ∧
      exec i s = .next { s with
        a := s.a ^^^ s.readSrc r
        f := if s.a ^^^ s.readSrc r = 0x00#8 then 0x80#8 else 0x00#8
        pc := s.instrAddr 1 }) ∨
    (∃ b r, (i = bitInstr b r ∨ ∃ op, i = .escape op ∧ decodePrefixed op = .bit b r) ∧
      exec i s = .next { s with
        f := (if (s.readSrc r).getLsbD b.toNat then 0x00#8 else 0x80#8) ||| 0x20#8 ||| (s.f &&& 0x1F#8)
        pc := s.instrAddr 2 }) ∨
    (((∃ n, i = .cbNopLow n) ∨ (∃ n, i = .cbNopHigh n) ∨ ∃ op, i = .escape op ∧ decodePrefixed op = .unknown) ∧
      exec i s = .next (s.advance 2)) ∨
    ((i = .nop ∨ ∃ op, i = .unknown op) ∧ exec i s = .next (s.advance 1)) := by
  rcases instr_family i with ⟨p, d16, rfl⟩ | ⟨r, rfl⟩ | ⟨b, r, rfl⟩ | ⟨n, rfl⟩ | ⟨n, rfl⟩ | rfl | ⟨op, rfl⟩ | ⟨op, rfl⟩
  · exact .inl ⟨p, d16, rfl, by rw [exec_ldInstr, loadImm16_finish]⟩
  · exact .inr (.inl ⟨r, rfl, by rw [exec_xorInstr, xorA_finish]⟩)
  · exact .inr (.inr (.inl ⟨b, r, .inl rfl, by rw [exec_bitInstr, bitTest_finish]⟩))
  · exact .inr (.inr (.inr (.inl ⟨.inl ⟨n, rfl⟩, skipPrefixed_eq s⟩)))
  · exact .inr (.inr (.inr (.inl ⟨.inr (.inl ⟨n, rfl⟩), skipPrefixed_eq s⟩)))
  · exact .inr (.inr (.inr (.inr ⟨.inl rfl, rfl⟩)))
  · exact .inr (.inr (.inr (.inr ⟨.inr ⟨op, rfl⟩, rfl⟩)))
  · rcases execEscape_cases s op with ⟨b, r, hd, h⟩ | ⟨hd, h⟩
    · exact .inr (.inr (.inl ⟨b, r, .inr ⟨op, rfl, hd⟩, h.trans (bitTest_finish s b r)⟩))
    · exact .inr (.inr (.inr (.inl ⟨.inr (.inr ⟨op, rfl, hd⟩), h.trans (skipPrefixed_eq s)⟩)))

end Meanings

/-! ### The cases of a step -/

/-- Everything a step can do (R81): nothing, in the faulted state; raise PcOverflow; or run the fetched instruction. -/
theorem stepUnder_cases (p : PcOverflow) (s : State) :
    (s.faulted = true ∧ stepUnder p s = .next s) ∨
    (s.faulted = false ∧ p = .fault ∧ 0xFFFF < s.pc.toNat + s.instrLength ∧
      stepUnder p s = .next s.raisePcOverflow) ∨
    (s.faulted = false ∧ (p = .wrap ∨ s.pc.toNat + s.instrLength ≤ 0xFFFF) ∧
      stepUnder p s = exec s.fetchInstr s) := by
  unfold stepUnder
  by_cases hf : s.faulted = true
  · exact .inl ⟨hf, by simp [hf]⟩
  · have hf2 : s.faulted = false := by simpa using hf
    by_cases ho : p = .fault ∧ s.overflows = true
    · exact .inr (.inl ⟨hf2, ho.1, by simpa [State.overflows] using ho.2, by simp [hf2, ho]⟩)
    · refine .inr (.inr ⟨hf2, ?_, by simp [hf2, ho]⟩)
      cases p
      · right; simpa [State.overflows] using ho
      · exact .inl rfl

/-- What holds at reset and is kept by every interaction of the caller holds of every reachable state. -/
theorem reachable_induction {p : PcOverflow} {P : State → Prop} (h0 : P State.reset)
    (hstep : ∀ act s t, P s → actUnder p act s = .next t → P t) {s : State} (hs : Reachable p s) : P s := by
  have key : ∀ acts s t, P s → actsUnder p acts s = .next t → P t := by
    intro acts
    induction acts with
    | nil => intro s t h e; cases e; exact h
    | cons act acts ih =>
      intro s t h e
      simp only [actsUnder] at e
      split at e
      · exact ih _ _ (hstep _ _ _ h ‹_›) e
      · cases e
      · cases e
  obtain ⟨acts, h⟩ := hs
  exact key _ _ _ h0 h

end Sys2Proof.Machine
end

