-- ==== Sys2Proof/Laws/Memory.lean ====
section
/-! SUPPORT. Memory: the canonical form is kept by every operation, a read after a write, and equal reads give equal
memories. -/

namespace Sys2Proof.Machine

theorem Memory.wf_nil : Memory.wf [] := by simp [Memory.wf]

/-- The tail of a canonical memory is canonical, and every address in it is above the head's. -/
theorem Memory.wf_cons {k : Nat} {x : Byte} {m : Memory} :
    Memory.wf ((k, x) :: m) ↔
      (∀ y ∈ m, k < y.1) ∧ k < 65536 ∧ x ≠ Memory.unlisted ∧ Memory.wf m := by
  simp only [Memory.wf, List.pairwise_cons, List.forall_mem_cons]
  constructor
  · rintro ⟨⟨h1, h2⟩, ⟨h3, h4⟩, h5⟩; exact ⟨h1, h3, h4, h2, h5⟩
  · rintro ⟨h1, h3, h4, h2, h5⟩; exact ⟨⟨h1, h2⟩, ⟨h3, h4⟩, h5⟩

/-- An address below every listed one reads as unlisted. -/
theorem Memory.read_of_lt {m : Memory} {a : Nat} (h : ∀ y ∈ m, a < y.1) : m.read a = Memory.unlisted := by
  induction m with
  | nil => rfl
  | cons y m ih =>
    have hy := h y (by simp)
    rw [Memory.read, if_neg (by omega)]
    exact ih fun z hz => h z (by simp [hz])

/-- Every address a write leaves listed was listed, or is the one written. -/
theorem Memory.mem_write {m : Memory} {a : Nat} {v : Byte} {y : Host.Cell} (h : y ∈ m.write a v) :
    y ∈ m ∨ (y = (a, v) ∧ v ≠ Memory.unlisted) := by
  induction m with
  | nil =>
    simp only [Memory.write] at h
    split at h <;> simp_all
  | cons z m ih =>
    obtain ⟨k, x⟩ := z
    simp only [Memory.write] at h
    split_ifs at h with h1 h2 h3 h4
    · exact .inl h
    · rcases List.mem_cons.1 h with h | h
      · exact .inr ⟨h, h2⟩
      · exact .inl h
    · exact .inl (List.mem_cons_of_mem _ h)
    · rcases List.mem_cons.1 h with h | h
      · exact .inr ⟨h, h4⟩
      · exact .inl (List.mem_cons_of_mem _ h)
    · rcases List.mem_cons.1 h with h | h
      · exact .inl (by simp [h])
      · exact (ih h).imp (List.mem_cons_of_mem _) id

/-- A write keeps the canonical form. -/
theorem Memory.write_wf {m : Memory} {a : Nat} (v : Byte) (hm : m.wf) (ha : a < 65536) : (m.write a v).wf := by
  induction m with
  | nil =>
    simp only [Memory.write]
    split
    · exact Memory.wf_nil
    · exact Memory.wf_cons.2 ⟨by simp, ha, ‹_›, Memory.wf_nil⟩
  | cons z m ih =>
    obtain ⟨k, x⟩ := z
    obtain ⟨hk, hk2, hx, hm2⟩ := Memory.wf_cons.1 hm
    simp only [Memory.write]
    split_ifs with h1 h2 h3 h4
    · exact hm
    · refine Memory.wf_cons.2 ⟨fun y hy => ?_, ha, h2, hm⟩
      rcases List.mem_cons.1 hy with rfl | hy
      · exact h1
      · exact h1.trans (hk y hy)
    · exact hm2
    · exact Memory.wf_cons.2 ⟨fun y hy => h3 ▸ hk y hy, ha, h4, hm2⟩
    · refine Memory.wf_cons.2 ⟨fun y hy => ?_, hk2, hx, ih hm2⟩
      rcases Memory.mem_write hy with hy | ⟨rfl, -⟩
      · exact hk y hy
      · show k < a
        omega

/-- A read after a write of the same address gives the byte written. -/
theorem Memory.read_write_same {m : Memory} (a : Nat) (v : Byte) (hm : m.wf) : (m.write a v).read a = v := by
  induction m with
  | nil =>
    simp only [Memory.write]
    split <;> simp_all [Memory.read]
  | cons z m ih =>
    obtain ⟨k, x⟩ := z
    obtain ⟨hk, -, -, hm2⟩ := Memory.wf_cons.1 hm
    simp only [Memory.write]
    split_ifs with h1 h2 h3 h4
    · rw [h2]
      exact Memory.read_of_lt fun y hy => by
        rcases List.mem_cons.1 hy with rfl | hy
        · exact h1
        · exact h1.trans (hk y hy)
    · simp [Memory.read]
    · rw [h4, h3]
      exact Memory.read_of_lt hk
    · simp [Memory.read]
    · simpa [Memory.read, h3] using ih hm2

/-- A write leaves every other address as it was. -/
theorem Memory.read_write_other (m : Memory) {a b : Nat} (v : Byte) (h : b ≠ a) : (m.write a v).read b = m.read b := by
  induction m with
  | nil =>
    simp only [Memory.write]
    split <;> simp [Memory.read, h]
  | cons z m ih =>
    obtain ⟨k, x⟩ := z
    simp only [Memory.write]
    split_ifs with h1 h2 h3 h4
    · rfl
    · simp [Memory.read, h]
    · simp [Memory.read, ← h3, h]
    · simp [Memory.read, ← h3, h]
    · simp [Memory.read, ih]

/-- The caller's write at one address, read at another 16-bit address. -/
theorem memRead_memWrite_other (s : State) {a b : Word} (v : Byte) (h : b ≠ a) :
    (s.memWrite a v).memRead b = s.memRead b :=
  Memory.read_write_other _ _ fun e => h (BitVec.eq_of_toNat_eq e)

/-- The caller's write, read back. -/
theorem memRead_memWrite_same {s : State} (hs : s.mem.wf) (a : Word) (v : Byte) : (s.memWrite a v).memRead a = v :=
  Memory.read_write_same _ _ hs

/-- The caller's write keeps the canonical form. -/
theorem memWrite_wf {s : State} (hs : s.mem.wf) (a : Word) (v : Byte) : (s.memWrite a v).mem.wf :=
  Memory.write_wf v hs a.isLt

theorem reset_wf : State.reset.mem.wf := Memory.wf_nil

end Sys2Proof.Machine
end

