-- ==== Sys2Proof/Laws/PerInstr.lean ====
section
/-! SUPPORT. Per-instruction families: one lemma per constructor of Instr. -/

namespace Sys2Proof.Laws.EncodedLength

/-- A well-formed instruction is encoded in exactly as many bytes as its first byte says (R60). -/
def Statement (i : Instr) : Prop :=
  i.wellFormed = true → (encode i).length = opLength ((encode i).getD 0 0)

/-- A load-immediate-16 is three bytes long, for each pair (R60). -/
theorem opLength_ld : ∀ pp : BitVec 2, pp ≠ 0b11#2 → 3 = opLength (0b00#2 ++ pp ++ 0b0001#4) := by decide

/-- An escape is two bytes long, whatever its second byte (R60). -/
theorem opLength_escape : 2 = opLength 0xCB#8 := by decide

/-- A catch-all byte is one byte long, whichever it is (R60). -/
theorem opLength_catchAll : ∀ op : Byte, isCatchAllOpcode op = true → 1 = opLength op := by decide

theorem ldBC (d16 : Word) : Statement (.ldBC d16) := fun _ => opLength_ld 0b00#2 (by decide)
theorem ldDE (d16 : Word) : Statement (.ldDE d16) := fun _ => opLength_ld 0b01#2 (by decide)
theorem ldHL (d16 : Word) : Statement (.ldHL d16) := fun _ => opLength_ld 0b10#2 (by decide)
theorem xorB : Statement .xorB := fun _ => rfl
theorem xorC : Statement .xorC := fun _ => rfl
theorem xorD : Statement .xorD := fun _ => rfl
theorem xorE : Statement .xorE := fun _ => rfl
theorem xorH : Statement .xorH := fun _ => rfl
theorem xorL : Statement .xorL := fun _ => rfl
theorem xorMem : Statement .xorMem := fun _ => rfl
theorem xorA : Statement .xorA := fun _ => rfl
theorem escape (op : Byte) : Statement (.escape op) := fun _ => opLength_escape
theorem bitB (b : BitVec 3) : Statement (.bitB b) := fun _ => opLength_escape
theorem bitC (b : BitVec 3) : Statement (.bitC b) := fun _ => opLength_escape
theorem bitD (b : BitVec 3) : Statement (.bitD b) := fun _ => opLength_escape
theorem bitE (b : BitVec 3) : Statement (.bitE b) := fun _ => opLength_escape
theorem bitH (b : BitVec 3) : Statement (.bitH b) := fun _ => opLength_escape
theorem bitL (b : BitVec 3) : Statement (.bitL b) := fun _ => opLength_escape
theorem bitMem (b : BitVec 3) : Statement (.bitMem b) := fun _ => opLength_escape
theorem bitA (b : BitVec 3) : Statement (.bitA b) := fun _ => opLength_escape
theorem cbNopLow (n : BitVec 6) : Statement (.cbNopLow n) := fun _ => opLength_escape
theorem cbNopHigh (n : BitVec 7) : Statement (.cbNopHigh n) := fun _ => opLength_escape
theorem nop : Statement .nop := fun _ => rfl

theorem unknown (op : Byte) : Statement (.unknown op) := fun h => opLength_catchAll op h

end Sys2Proof.Laws.EncodedLength
end

