-- ==== Sys2Proof/Certificates/Slice0/Obligations.lean ====
section
/-! DEFINITION. The statements for the provers: the numbered rules of the spec about what the machine does. Statements
about a step are made for both values of `PC_OVERFLOW` (R7). -/

open Sys2Proof Sys2Proof.Machine

/-! ### Register file and memory -/

/-- R33: the state after reset. -/
def Obligations.ResetStateHoldsSpecValues : Prop :=
  (∀ r, State.reset.read8 r = 0x00#8) ∧ (∀ fl, State.reset.getFlag fl = false) ∧ (∀ p, State.reset.read16 p = 0x0000#16) ∧
  State.reset.pc = 0x0000#16 ∧ (∀ a, State.reset.memRead a = 0x00#8) ∧ State.reset.faulted = false

/-- R21: a write of a cell other than F stores the byte, and changes nothing else. -/
def Obligations.CellWriteReadsBack : Prop :=
  ∀ (s : State) (r : Reg) (v : Byte), r ≠ .f →
    (s.write8 r v).read8 r = v ∧ KeepsCells s (s.write8 r v) [r] ∧ KeepsMemory s (s.write8 r v) ∧
    (s.write8 r v).pc = s.pc ∧ (s.write8 r v).faulted = s.faulted

/-- R23: a write of F stores bits 7..4 and keeps bits 3..0 zero, and changes nothing else. -/
def Obligations.FlagCellWriteMasksLowNibble : Prop :=
  ∀ (s : State) (v : Byte),
    (s.write8 .f v).read8 .f = v &&& 0xF0#8 ∧
    (∀ i, 4 ≤ i → ((s.write8 .f v).read8 .f).getLsbD i = v.getLsbD i) ∧
    (∀ i, i < 4 → ((s.write8 .f v).read8 .f).getLsbD i = false) ∧
    KeepsCells s (s.write8 .f v) [.f] ∧ KeepsMemory s (s.write8 .f v) ∧
    (s.write8 .f v).pc = s.pc ∧ (s.write8 .f v).faulted = s.faulted

/-- R24, R25: the three pairs as views of their cells, and a pair's write as one update of its two cells. -/
def Obligations.PairWriteSplitsIntoItsCells : Prop :=
  ∀ (s : State),
    (s.read16 .bc = s.b ++ s.c ∧ s.read16 .de = s.d ++ s.e ∧ s.read16 .hl = s.h ++ s.l) ∧
    ∀ (x : Pair × Reg × Reg), x ∈ [(.bc, .b, .c), (.de, .d, .e), (.hl, .h, .l)] → ∀ v : Word,
      s.read16 x.1 = (s.read8 x.2.1).setWidth 16 <<< 8 ||| (s.read8 x.2.2).setWidth 16 ∧
      (s.write16 x.1 v).read8 x.2.1 = v.extractLsb' 8 8 ∧ (s.write16 x.1 v).read8 x.2.2 = v.extractLsb' 0 8 ∧
      KeepsCells s (s.write16 x.1 v) [x.2.1, x.2.2] ∧ KeepsMemory s (s.write16 x.1 v) ∧
      (s.write16 x.1 v).pc = s.pc ∧ (s.write16 x.1 v).faulted = s.faulted

/-- R26: the aliasing laws of pairs and cells. -/
def Obligations.PairsAliasTheirCells : Prop :=
  ∀ (s : State) (p : Pair) (v : Word) (x : Byte),
    (s.write16 p v).read16 p = v ∧
    (s.write16 p v).read8 (hiReg p) = v.extractLsb' 8 8 ∧ (s.write16 p v).read8 (loReg p) = v.extractLsb' 0 8 ∧
    (s.write8 (hiReg p) x).read16 p = x ++ (s.read16 p).extractLsb' 0 8 ∧
    (s.write8 (loReg p) x).read16 p = (s.read16 p).extractLsb' 8 8 ++ x ∧
    ∀ q, q ≠ p → (s.write16 p v).read16 q = s.read16 q

/-- R27: where each flag stands in F, and that setting one changes one bit of F and nothing else. -/
def Obligations.FlagSetTouchesOneBit : Prop :=
  ∀ (s : State),
    (s.getFlag .z = (s.read8 .f).getLsbD 7 ∧ s.getFlag .n = (s.read8 .f).getLsbD 6 ∧
      s.getFlag .h = (s.read8 .f).getLsbD 5 ∧ s.getFlag .c = (s.read8 .f).getLsbD 4) ∧
    (s.Inv → ∀ i, i < 4 → (s.read8 .f).getLsbD i = false) ∧
    (∀ (v : Byte) (i : Nat), i < 4 → ((s.write8 .f v).read8 .f).getLsbD i = false) ∧
    ∀ (fl : Flag) (v : Bool),
      (s.setFlag fl v).getFlag fl = v ∧ KeepsFlags s (s.setFlag fl v) [fl] ∧ KeepsLowNibble s (s.setFlag fl v) ∧
      KeepsCells s (s.setFlag fl v) [.f] ∧ KeepsMemory s (s.setFlag fl v) ∧
      (s.setFlag fl v).pc = s.pc ∧ (s.setFlag fl v).faulted = s.faulted

/-- R43: a byte reads as it was last stored, and as 0x00 with no store since reset; a store changes exactly one byte. -/
def Obligations.MemoryHoldsTheLastByteStored : Prop :=
  (∀ (s : State) (a : Word) (v : Byte), s.mem.wf →
    (s.memWrite a v).memRead a = v ∧ (∀ b, b ≠ a → (s.memWrite a v).memRead b = s.memRead b) ∧
    KeepsCells s (s.memWrite a v) [] ∧ (s.memWrite a v).pc = s.pc ∧ (s.memWrite a v).faulted = s.faulted) ∧
  ∀ (ws : List (Word × Byte)) (a : Word),
    (ws.foldl (fun t w => t.memWrite w.1 w.2) State.reset).memRead a =
      ((ws.reverse.find? (fun w => w.1 = a)).map (fun w => w.2)).getD 0x00#8

/-- The canonical form is one form: two canonical memories that read alike at all 65536 addresses (R30) are equal. The form
is the model's choice of representation (DESIGN CHOICE, log 2), no rule of the spec. -/
def Obligations.MemoriesThatReadAlikeAreEqual : Prop :=
  ∀ s t : State, s.mem.wf → t.mem.wf → KeepsMemory s t → s.mem = t.mem

/-! ### Encoding -/

/-- R62, R63: the primary table, byte by byte: 12 named values and 244 Unknown ones. The last clause is about the model's
own reading of the table, not R62's words: that the operand bytes are taken with the opcode (DEDUCED, log 5), and that an
Unknown byte is `nop` for 0x00 and `unknown` otherwise, where R62 gives the one variant Unknown (DEDUCED, log 10). -/
def Obligations.PrimaryTableByteByByte : Prop :=
  decodePrimary 0x01#8 = .loadImm16 .bc ∧ decodePrimary 0x11#8 = .loadImm16 .de ∧ decodePrimary 0x21#8 = .loadImm16 .hl ∧
  decodePrimary 0x31#8 = .unknown ∧
  (decodePrimary 0xA8#8 = .xor .b ∧ decodePrimary 0xA9#8 = .xor .c ∧ decodePrimary 0xAA#8 = .xor .d ∧
    decodePrimary 0xAB#8 = .xor .e ∧ decodePrimary 0xAC#8 = .xor .h ∧ decodePrimary 0xAD#8 = .xor .l ∧
    decodePrimary 0xAE#8 = .xor .memHL ∧ decodePrimary 0xAF#8 = .xor .a) ∧
  decodePrimary 0xCB#8 = .escape ∧
  (∀ op : Byte, op ∉ [0x01#8, 0x11#8, 0x21#8, 0xCB#8] → op < 0xA8#8 ∨ 0xAF#8 < op → decodePrimary op = .unknown) ∧
  ((List.range 256).filter fun n => decodePrimary (BitVec.ofNat 8 n) = .unknown).length = 244 ∧
  ∀ b1 b2 : Byte,
    decodeInstr 0x01#8 b1 b2 = .ldBC (b2 ++ b1) ∧ decodeInstr 0x11#8 b1 b2 = .ldDE (b2 ++ b1) ∧
    decodeInstr 0x21#8 b1 b2 = .ldHL (b2 ++ b1) ∧ decodeInstr 0xCB#8 b1 b2 = .escape b1 ∧
    ∀ op, decodePrimary op = .unknown → decodeInstr op b1 b2 = if op = 0x00#8 then .nop else .unknown op

/-- R64: the r field is bits 2..0 of the XOR opcode and of the BIT prefixed opcode, and the operand each value selects. -/
def Obligations.RFieldSelectsTheOperand : Prop :=
  (∀ r : BitVec 3, decodePrimary (0b10101#5 ++ r) = .xor (srcOfField r)) ∧
  (∀ b r : BitVec 3, decodePrefixed (0b01#2 ++ b ++ r) = .bit b (srcOfField r)) ∧
  ∀ s : State,
    (∀ x ∈ regFields, s.readSrc (srcOfField x.1) = s.read8 x.2) ∧
    s.readSrc (srcOfField 0b110#3) = s.memRead (s.h ++ s.l)

/-- R65 (and the values of R66): the prefixed table: BIT at 0x40 + 8*b + r, everything else its catch-all. The last clause
is about the model's own decoder of byte lists (DEDUCED, log 14), which gives the one variant PrefixedUnknown as one of two
instructions (DEDUCED, log 10). -/
def Obligations.PrefixedTableByteByByte : Prop :=
  (∀ b r : BitVec 3,
    decodePrefixed (BitVec.ofNat 8 (0x40 + 8 * b.toNat + r.toNat)) = .bit b (srcOfField r)) ∧
  (∀ op : Byte, op < 0x40#8 ∨ 0x7F#8 < op → decodePrefixed op = .unknown) ∧
  ((List.range 256).filter fun n => decodePrefixed (BitVec.ofNat 8 n) = .unknown).length = 192 ∧
  (∀ x y : Byte, decodePrefixed x ≠ .unknown → decodePrefixed x = decodePrefixed y → x = y) ∧
  ∀ (op : Byte) (rest : List Byte),
    (∀ b r, decodePrefixed op = .bit b r → decodeBytes (0xCB#8 :: op :: rest) = .ok (bitInstr b r, rest)) ∧
    (decodePrefixed op = .unknown → ∃ i, decodeBytes (0xCB#8 :: op :: rest) = .ok (i, rest) ∧
      ((∃ n, i = .cbNopLow n) ∨ ∃ n, i = .cbNopHigh n))

/-- R60: the length of an instruction from its first byte alone. -/
def Obligations.LengthComesFromTheFirstByte : Prop :=
  (∀ op ∈ [0x01#8, 0x11#8, 0x21#8], opLength op = 3) ∧ opLength 0xCB#8 = 2 ∧
  (∀ op : Byte, op ∉ [0x01#8, 0x11#8, 0x21#8, 0xCB#8] → opLength op = 1) ∧
  (∀ i, Sys2Proof.Laws.EncodedLength.Statement i) ∧
  ∀ (op : Byte) (rest : List Byte) (i : Instr) (after : List Byte),
    decodeBytes (op :: rest) = .ok (i, after) → (op :: rest).drop (opLength op) = after

/-- That a list of bytes with enough bytes decodes, whichever they are, follows R69: no byte value is illegal. That a
shorter list is refused, and by the name `truncated`, is the model's choice (DEDUCED, log 14): the spec has no decoder of
byte lists. -/
def Obligations.OnlyTruncatedBytesAreRefused : Prop :=
  ∀ (op : Byte) (rest : List Byte),
    (opLength op ≤ rest.length + 1 → ∃ i, decodeBytes (op :: rest) = .ok (i, rest.drop (opLength op - 1))) ∧
    (rest.length + 1 < opLength op → decodeBytes (op :: rest) = .error (.truncated op))

/-- Decode of encode: every well-formed instruction of both tables is read back with its operands, whatever follows; the
escape is read back as the instruction of the prefixed table it runs, and by the primary table as itself. -/
def Obligations.DecodingAnEncodedInstructionGivesItBack : Prop :=
  (∀ (i : Instr) (rest : List Byte), i.wellFormed = true → (∀ op, i ≠ .escape op) →
    decodeBytes (encode i ++ rest) = .ok (i, rest)) ∧
  ∀ (op b2 : Byte) (rest : List Byte),
    decodeBytes (encode (.escape op) ++ rest) = .ok (prefixedInstr op, rest) ∧ decodeInstr 0xCB#8 op b2 = .escape op

/-- Encode of decode: what the decoder reads is well formed, is no bare escape, and encodes to the very bytes read. -/
def Obligations.EncodingADecodedInstructionGivesItsBytes : Prop :=
  ∀ (bytes : List Byte) (i : Instr) (rest : List Byte), decodeBytes bytes = .ok (i, rest) →
    i.wellFormed = true ∧ (∀ op, i ≠ .escape op) ∧ encode i ++ rest = bytes

/-- A few words written out from the spec's encodings (R61 to R66), one or two of each family. -/
def Obligations.SpecWordsDecodeToTheirInstructions : Prop :=
  decodeBytes [0b00000001#8, 0x34#8, 0x12#8] = .ok (.ldBC 0x1234#16, []) ∧
  decodeBytes [0b00100001#8, 0xAA#8, 0xBB#8] = .ok (.ldHL 0xBBAA#16, []) ∧
  decodeBytes [0b10101011#8] = .ok (.xorE, []) ∧
  decodeBytes [0b10101110#8] = .ok (.xorMem, []) ∧
  decodeBytes [0b11001011#8, 0b01111100#8] = .ok (.bitH 7#3, []) ∧
  decodeBytes [0b11001011#8, 0b01000110#8] = .ok (.bitMem 0#3, []) ∧
  decodeBytes [0b11001011#8, 0b00111111#8] = .ok (.cbNopLow 0b111111#6, []) ∧
  decodeBytes [0b11001011#8, 0b11001011#8] = .ok (.cbNopHigh 0b1001011#7, []) ∧
  decodeBytes [0b00000000#8] = .ok (.nop, []) ∧
  decodeBytes [0b00110001#8, 0x00#8, 0xC0#8] = .ok (.unknown 0x31#8, [0x00#8, 0xC0#8])

/-! ### The step -/

/-- R80, R81: where the machine is not faulted and the instruction does not overflow (or PC_OVERFLOW is wrap), the step is
the meaning of the instruction whose bytes stand at the program counter. -/
def Obligations.StepRunsTheDecodedInstruction : Prop :=
  (∀ s : State, step s = stepUnder Config.pcOverflow s) ∧
  ∀ (p : PcOverflow) (s : State) (i : Instr) (rest : List Byte), s.faulted = false →
    (p = .wrap ∨ s.pc.toNat + opLength (s.memRead s.pc) ≤ 0xFFFF) →
    decodeBytes [s.memRead s.pc, s.memRead (s.pc + 1#16), s.memRead (s.pc + 2#16)] = .ok (i, rest) →
    i.wellFormed = true ∧ stepUnder p s = exec i s

/-- R84: what happens at the top of the address space, under either policy. -/
def Obligations.TopOfMemoryFollowsThePolicy : Prop :=
  ∀ (s : State), s.faulted = false → 0xFFFF < s.pc.toNat + opLength (s.memRead s.pc) →
    (stepUnder .fault s = .next { s with faulted := true } ∧
      ∀ (n : Nat), runUnder .fault (n + 1) s = .next { s with faulted := true }) ∧
    ∃ t, stepUnder .wrap s = .next t ∧ t.faulted = false ∧
      stepUnder .wrap s = exec (decodeInstr (s.memRead s.pc)
        (s.memRead (BitVec.ofNat 16 ((s.pc.toNat + 1) % 65536))) (s.memRead (BitVec.ofNat 16 ((s.pc.toNat + 2) % 65536)))) s ∧
      t.pc = BitVec.ofNat 16 ((s.pc.toNat + opLength (s.memRead s.pc)) % 65536)

/-- R121: where each instruction raises PcOverflow, and what the state then is. -/
def Obligations.PcOverflowRaisedExactlyAtTheTop : Prop :=
  (∀ (s t : State), s.faulted = false → stepUnder .fault s = .next t →
    (s.memRead s.pc ∈ [0x01#8, 0x11#8, 0x21#8] → (t.faulted = true ↔ s.pc ∈ [0xFFFD#16, 0xFFFE#16, 0xFFFF#16])) ∧
    (s.memRead s.pc = 0xCB#8 → (t.faulted = true ↔ s.pc ∈ [0xFFFE#16, 0xFFFF#16])) ∧
    (s.memRead s.pc ∉ [0x01#8, 0x11#8, 0x21#8, 0xCB#8] → (t.faulted = true ↔ s.pc = 0xFFFF#16)) ∧
    (t.faulted = true → t = { s with faulted := true } ∧ t.pc = s.pc)) ∧
  ∀ (s t : State), s.faulted = false → stepUnder .wrap s = .next t → t.faulted = false

/-- R123, R124: the fault is precise, and the faulted state is stuck until reset. -/
def Obligations.FaultedStateIsStuckUntilReset : Prop :=
  (∀ (p : PcOverflow) (s t : State), s.faulted = false → stepUnder p s = .next t → t.faulted = true →
    t = { s with faulted := true }) ∧
  (∀ (p : PcOverflow) (n : Nat) (s : State), s.faulted = true → runUnder p n s = .next s) ∧
  (∀ (p : PcOverflow) (act : CallerAction) (s t : State), s.faulted = true → actUnder p act s = .next t →
    t.faulted = true ∨ (act = .construct ∧ t = State.reset)) ∧
  State.reset.faulted = false ∧
  ∀ (p : PcOverflow) (n : Nat) (s t : State), runResult p n s = .next t → t.faulted = false

/-- R31: under `wrap`, `faulted` is set in no state reached from reset, whatever the caller does. -/
def Obligations.WrapPolicyNeverFaults : Prop :=
  ∀ s : State, Reachable .wrap s → s.faulted = false

/-- R87: no handler can fail. Every instruction has an effect in every state, and every step completes, either with the
instruction's effect or in the PcOverflow state. -/
def Obligations.EveryStepCompletes : Prop :=
  (∀ (i : Instr) (s : State), ∃ t, exec i s = .next t ∧ t.faulted = s.faulted) ∧
  ∀ (p : PcOverflow) (s : State), ∃ t, stepUnder p s = .next t ∧
    (s.faulted = false → t.faulted = true → p = .fault ∧ 0xFFFF < s.pc.toNat + opLength (s.memRead s.pc))

/-- R86: there is no control transfer. Every step that does not fault moves the pc by the instruction's length. -/
def Obligations.PcMovesByTheInstructionLength : Prop :=
  ∀ (p : PcOverflow) (s t : State), s.faulted = false → stepUnder p s = .next t → t.faulted = false →
    t.pc = s.pc + BitVec.ofNat 16 (opLength (s.memRead s.pc)) ∧
    (p = .fault → t.pc.toNat = s.pc.toNat + opLength (s.memRead s.pc))

/-- R45: no instruction and no step writes memory. -/
def Obligations.NoInstructionWritesMemory : Prop :=
  (∀ (i : Instr) (s t : State), exec i s = .next t → KeepsMemory s t ∧ t.mem = s.mem) ∧
  ∀ (p : PcOverflow) (n : Nat) (s t : State), runUnder p n s = .next t → KeepsMemory s t ∧ t.mem = s.mem

/-- R85, R45: the result of a step depends on the memory bytes at the addresses R45 gives its instruction, and on no other
byte of memory. -/
def Obligations.StepDependsOnlyOnTheBytesItReads : Prop :=
  ∀ (p : PcOverflow) (s : State) (m : Memory),
    (∀ a ∈ s.stepReads, ({ s with mem := m } : State).memRead a = s.memRead a) →
    ∀ t, stepUnder p s = .next t → stepUnder p { s with mem := m } = .next { t with mem := m }

/-- R28: the flags each family writes; that no instruction reads a flag but to keep it; and the flags after reset. -/
def Obligations.FlagsWrittenByFamily : Prop :=
  (∀ (s t : State) (i : Instr), i ∈ [.xorB, .xorC, .xorD, .xorE, .xorH, .xorL, .xorMem, .xorA] → exec i s = .next t →
    t.getFlag .z = (t.read8 .a == 0x00#8) ∧ t.getFlag .n = false ∧ t.getFlag .h = false ∧ t.getFlag .c = false) ∧
  (∀ (s t : State) (b : BitVec 3) (x : Instr × Byte),
    x ∈ [(.bitB b, s.b), (.bitC b, s.c), (.bitD b, s.d), (.bitE b, s.e), (.bitH b, s.h), (.bitL b, s.l),
      (.bitMem b, s.memRead (s.read16 .hl)), (.bitA b, s.a)] → exec x.1 s = .next t →
    t.getFlag .z = !x.2.getLsbD b.toNat ∧ t.getFlag .n = false ∧ t.getFlag .h = true ∧ t.getFlag .c = s.getFlag .c) ∧
  (∀ (s t : State) (d16 : Word) (n6 : BitVec 6) (n7 : BitVec 7) (op : Byte) (i : Instr),
    i ∈ [.ldBC d16, .ldDE d16, .ldHL d16, .cbNopLow n6, .cbNopHigh n7, .nop, .unknown op] → exec i s = .next t →
    KeepsFlags s t []) ∧
  (∀ (s t : State) (op : Byte), decodePrefixed op = .unknown → exec (.escape op) s = .next t → KeepsFlags s t []) ∧
  (∀ (i : Instr) (s t : State) (f : Byte), exec i s = .next t →
    ∃ u, exec i { s with f := f } = .next u ∧ { u with f := t.f } = t ∧
      (∀ fl, u.getFlag fl = t.getFlag fl ∨ u.getFlag fl = f.getLsbD (flagPos fl))) ∧
  ∀ fl, State.reset.getFlag fl = false

/-- R28 and the handlers: in a step, A is written by XOR alone, each pair by its own load alone, F by XOR and BIT alone, and
Carry by XOR alone. The no-ops write no register (R106, R110), the escape writes what it dispatches to (R105), and a
faulting or faulted step writes none (R84, R124). -/
def Obligations.EachRegisterIsWrittenByItsFamilyAlone : Prop :=
  ∀ (p : PcOverflow) (s t : State), stepUnder p s = .next t →
    (t.a ≠ s.a → 0xA8#8 ≤ s.memRead s.pc ∧ s.memRead s.pc ≤ 0xAF#8) ∧
    (t.b ≠ s.b ∨ t.c ≠ s.c → s.memRead s.pc = 0x01#8) ∧
    (t.d ≠ s.d ∨ t.e ≠ s.e → s.memRead s.pc = 0x11#8) ∧
    (t.h ≠ s.h ∨ t.l ≠ s.l → s.memRead s.pc = 0x21#8) ∧
    (t.f ≠ s.f → (0xA8#8 ≤ s.memRead s.pc ∧ s.memRead s.pc ≤ 0xAF#8) ∨
      (s.memRead s.pc = 0xCB#8 ∧ 0x40#8 ≤ s.memRead (s.pc + 1#16) ∧ s.memRead (s.pc + 1#16) ≤ 0x7F#8)) ∧
    (t.getFlag .c ≠ s.getFlag .c → 0xA8#8 ≤ s.memRead s.pc ∧ s.memRead s.pc ≤ 0xAF#8)

/-- R67, R80 to R83: the step in the source's own order, whose handlers fetch their operand bytes themselves and move the
pc by turns, is the model's step. -/
def Obligations.SourceOrderStepAgrees : Prop :=
  ∀ (p : PcOverflow) (s : State), sourceStep p s = stepUnder p s

/-! ### Invariants and runs -/

/-- The invariant holds at reset: bits 3..0 of F are zero (R22, R33), and memory is in its canonical form. That form is the
model's choice of representation (DESIGN CHOICE, log 2), no rule of the spec. -/
def Obligations.ResetMeetsTheInvariant : Prop := State.reset.Inv

/-- The invariant is kept by every instruction, every step and every other interaction of the caller, from every state
that meets it. Its half about bits 3..0 of F is R22; its half about the canonical form of memory is the model's choice of
representation (DESIGN CHOICE, log 2), no rule of the spec. -/
def Obligations.EveryStepKeepsTheInvariant : Prop :=
  (∀ (i : Instr) (s t : State), s.Inv → exec i s = .next t → t.Inv) ∧
  (∀ (s t : State), s.Inv → step s = .next t → t.Inv) ∧
  ∀ (p : PcOverflow) (act : CallerAction) (s t : State), s.Inv → actUnder p act s = .next t → t.Inv

/-- R22: bits 3..0 of F are zero in every reachable state. The clause that memory keeps its canonical form is the model's
choice of representation (DESIGN CHOICE, log 2), no rule of the spec. -/
def Obligations.LowNibbleOfFIsZeroWhenReachable : Prop :=
  ∀ (p : PcOverflow) (s : State), Reachable p s → s.read8 .f &&& 0x0F#8 = 0x00#8 ∧ s.mem.wf

/-- R34: the flag values a program can reach. `EveryStepKeepsTheReachableFlagValues` is its step lemma. -/
def Obligations.ReachableFlagValues : Prop :=
  ∀ (p : PcOverflow) (s : State), Reachable p s →
    s.getFlag .n = false ∧ s.getFlag .c = false ∧ s.read8 .f ∈ [0x00#8, 0x20#8, 0x80#8, 0xA0#8]

/-- R28, R34: the step lemma of the reachable flag values. From every state whose F is one of the four, reachable or not,
every instruction, step and caller action gives a state whose F is one of them, with N and C 0. -/
def Obligations.EveryStepKeepsTheReachableFlagValues : Prop :=
  (∀ (i : Instr) (s t : State), HasReachableFlags s → exec i s = .next t → HasReachableFlags t) ∧
  (∀ (s t : State), HasReachableFlags s → step s = .next t → HasReachableFlags t) ∧
  (∀ (p : PcOverflow) (act : CallerAction) (s t : State), HasReachableFlags s → actUnder p act s = .next t →
    HasReachableFlags t) ∧
  ∀ s : State, HasReachableFlags s → s.getFlag .n = false ∧ s.getFlag .c = false

/-- R84, R86: under `fault`, a machine left to step with no interaction but `step()` reaches the faulted state, within as
many steps as there are addresses from the pc up. -/
def Obligations.FaultPolicyStopsWithinTheAddressSpace : Prop :=
  ∀ s : State, ∃ n t, n ≤ 65536 - s.pc.toNat ∧ runUnder .fault n s = .next t ∧ t.faulted = true

/-- R60, R86: in a run that has a result under `fault`, the pc rises by one to three per step and never wraps. -/
def Obligations.RunsMoveThePcUpward : Prop :=
  ∀ (n : Nat) (s t : State), runResult .fault n s = .next t →
    s.pc.toNat + n ≤ t.pc.toNat ∧ t.pc.toNat ≤ s.pc.toNat + 3 * n

/-- R88: every run answers a state; it has no result exactly when that state is faulted, and a run that continues one
without a result has none either. -/
def Obligations.RunsHaveAResultUnlessFaulted : Prop :=
  ∀ (p : PcOverflow) (n : Nat) (s : State), ∃ t, runUnder p n s = .next t ∧
    (t.faulted = false → runResult p n s = .next t) ∧ (t.faulted = true → runResult p n s = .fault .pcOverflow) ∧
    (∀ m, runUnder p (n + m) s = runUnder p m t) ∧ (∀ m, SafeRun p (n + m) s → SafeRun p n s)

/-- R69, R110: unknown bytes are skipped one at a time: `n` of them in a row take `n` steps and move only the pc. -/
def Obligations.UnknownBytesAreSkippedOneAtATime : Prop :=
  ∀ (p : PcOverflow) (n : Nat) (s : State), s.faulted = false → s.pc.toNat + n ≤ 0xFFFF →
    (∀ k, k < n → decodePrimary (s.memRead (s.pc + BitVec.ofNat 16 k)) = .unknown) →
    runUnder p n s = .next { s with pc := s.pc + BitVec.ofNat 16 n }

/-- R16, R143: what each interaction of the caller does. A memory write changes one byte and no other state; construction
leaves nothing of the old state; observing and stopping change nothing. That a write takes effect in a faulted state too,
and that construction is a move from any state to reset, are the model's deductions (DEDUCED, log 12). The canonical form of
memory, in the invariant, is the model's choice of representation (DESIGN CHOICE, log 2). -/
def Obligations.CallerActionsDoWhatTheSpecSays : Prop :=
  ∀ (p : PcOverflow) (s : State), s.Inv →
    actUnder p .construct s = .next State.reset ∧ actUnder p .callStep s = stepUnder p s ∧
    actUnder p .observe s = .next s ∧ actUnder p .stop s = .next s ∧
    ∀ (a : Word) (v : Byte), ∃ t, actUnder p (.writeByte a v) s = .next t ∧ t.memRead a = v ∧
      (∀ b, b ≠ a → t.memRead b = s.memRead b) ∧ KeepsCells s t [] ∧ t.pc = s.pc ∧ t.faulted = s.faulted ∧ t.Inv

/-- R50: a byte the caller writes between steps is what the next step fetches at that address. -/
def Obligations.CallerWriteIsSeenByTheNextFetch : Prop :=
  ∀ (p : PcOverflow) (s : State) (op b1 b2 : Byte), s.mem.wf → s.faulted = false →
    (p = .wrap ∨ s.pc.toNat + opLength op ≤ 0xFFFF) →
    ∃ t, actsUnder p [.writeByte s.pc op, .writeByte (s.pc + 1#16) b1, .writeByte (s.pc + 2#16) b2] s = .next t ∧
      t.pc = s.pc ∧ stepUnder p t = exec (decodeInstr op b1 b2) t

/-! ### The instructions: results, completion and frame in every state -/

/-- R90: each load-immediate-16 completes in every state; its result and its frame. -/
def Obligations.LoadImmediateResult : Prop :=
  ∀ (s : State) (d16 : Word),
    LoadsPair .bc d16 s (exec (.ldBC d16) s) ∧ LoadsPair .de d16 s (exec (.ldDE d16) s) ∧
    LoadsPair .hl d16 s (exec (.ldHL d16) s)

/-- R95, R96: each XOR completes in every state; its result and its frame. -/
def Obligations.XorResult : Prop :=
  ∀ s : State,
    XorsIntoA (s.read8 .b) s (exec .xorB s) ∧ XorsIntoA (s.read8 .c) s (exec .xorC s) ∧
    XorsIntoA (s.read8 .d) s (exec .xorD s) ∧ XorsIntoA (s.read8 .e) s (exec .xorE s) ∧
    XorsIntoA (s.read8 .h) s (exec .xorH s) ∧ XorsIntoA (s.read8 .l) s (exec .xorL s) ∧
    XorsIntoA (s.memRead (s.h ++ s.l)) s (exec .xorMem s) ∧ XorsIntoA (s.read8 .a) s (exec .xorA s)

/-- R100, R101: each BIT completes in every state; its flags and its frame. -/
def Obligations.BitTestResult : Prop :=
  ∀ (s : State) (b : BitVec 3),
    TestsBit (s.read8 .b) b s (exec (.bitB b) s) ∧ TestsBit (s.read8 .c) b s (exec (.bitC b) s) ∧
    TestsBit (s.read8 .d) b s (exec (.bitD b) s) ∧ TestsBit (s.read8 .e) b s (exec (.bitE b) s) ∧
    TestsBit (s.read8 .h) b s (exec (.bitH b) s) ∧ TestsBit (s.read8 .l) b s (exec (.bitL b) s) ∧
    TestsBit (s.memRead (s.h ++ s.l)) b s (exec (.bitMem b) s) ∧ TestsBit (s.read8 .a) b s (exec (.bitA b) s)

/-- R106, R110: each no-op completes in every state and moves only the pc. -/
def Obligations.NoOpsMoveOnlyThePc : Prop :=
  ∀ (s : State) (op : Byte) (n6 : BitVec 6) (n7 : BitVec 7),
    SkipsBytes 1 s (exec .nop s) ∧ SkipsBytes 1 s (exec (.unknown op) s) ∧
    SkipsBytes 2 s (exec (.cbNopLow n6) s) ∧ SkipsBytes 2 s (exec (.cbNopHigh n7) s)

/-- R105: the escape completes in every state, and is the instruction the prefixed table gives its second byte; it writes
no cell but F and no memory byte. -/
def Obligations.EscapeRunsThePrefixedInstruction : Prop :=
  ∀ (s : State) (op : Byte),
    exec (.escape op) s = exec (prefixedInstr op) s ∧
    ∃ t, exec (.escape op) s = .next t ∧ t.pc = s.pc + 2#16 ∧ KeepsCells s t [.f] ∧ KeepsFlags s t [.z, .n, .h] ∧
      KeepsLowNibble s t ∧ KeepsMemory s t ∧ t.faulted = s.faulted

/-! ### The instructions from their bytes in memory -/

/-- R90: a step on a load-immediate-16 opcode. -/
def Obligations.LoadImmediateStep : Prop :=
  ∀ (p : PcOverflow) (s : State), s.faulted = false →
    ∀ x ∈ ldOpcodes, s.memRead s.pc = x.1 →
      StepOr p 3 s (LoadsPair x.2 (s.memRead (s.pc + 2#16) ++ s.memRead (s.pc + 1#16)) s)

/-- R95: a step on an XOR of a register. -/
def Obligations.XorRegisterStep : Prop :=
  ∀ (p : PcOverflow) (s : State), s.faulted = false →
    ∀ x ∈ regFields, s.memRead s.pc = 0b10101#5 ++ x.1 → StepOr p 1 s (XorsIntoA (s.read8 x.2) s)

/-- R96: a step on XOR (HL). -/
def Obligations.XorMemoryStep : Prop :=
  ∀ (p : PcOverflow) (s : State), s.faulted = false →
    s.memRead s.pc = 0xAE#8 → StepOr p 1 s (XorsIntoA (s.memRead (s.read16 .hl)) s)

/-- R100: a step on a BIT of a register. -/
def Obligations.BitRegisterStep : Prop :=
  ∀ (p : PcOverflow) (s : State) (b : BitVec 3), s.faulted = false →
    ∀ x ∈ regFields, s.memRead s.pc = 0xCB#8 → s.memRead (s.pc + 1#16) = 0b01#2 ++ b ++ x.1 →
      StepOr p 2 s (TestsBit (s.read8 x.2) b s)

/-- R101: a step on BIT b,(HL). -/
def Obligations.BitMemoryStep : Prop :=
  ∀ (p : PcOverflow) (s : State) (b : BitVec 3), s.faulted = false →
    s.memRead s.pc = 0xCB#8 → s.memRead (s.pc + 1#16) = 0b01#2 ++ b ++ 0b110#3 →
      StepOr p 2 s (TestsBit (s.memRead (s.read16 .hl)) b s)

/-- R105: a step on the escape byte runs what the prefixed table, and never the primary one, gives the next byte. -/
def Obligations.EscapeStep : Prop :=
  ∀ (p : PcOverflow) (s : State), s.faulted = false → s.memRead s.pc = 0xCB#8 →
    StepOr p 2 s (fun o =>
      (∀ b r, decodePrefixed (s.memRead (s.pc + 1#16)) = .bit b r → o = exec (bitInstr b r) s) ∧
      (decodePrefixed (s.memRead (s.pc + 1#16)) = .unknown → SkipsBytes 2 s o) ∧
      ∃ t, o = .next t ∧ t.pc = s.pc + 2#16)

/-- R106: a step on the escape byte followed by a byte outside 0x40..0x7F. -/
def Obligations.PrefixedNoOpStep : Prop :=
  ∀ (p : PcOverflow) (s : State), s.faulted = false → s.memRead s.pc = 0xCB#8 →
    s.memRead (s.pc + 1#16) < 0x40#8 ∨ 0x7F#8 < s.memRead (s.pc + 1#16) → StepOr p 2 s (SkipsBytes 2 s)

/-- R110: a step on any of the 244 unknown bytes. -/
def Obligations.UnknownByteStep : Prop :=
  ∀ (p : PcOverflow) (s : State), s.faulted = false →
    s.memRead s.pc ∉ [0x01#8, 0x11#8, 0x21#8, 0xCB#8] → s.memRead s.pc < 0xA8#8 ∨ 0xAF#8 < s.memRead s.pc →
    StepOr p 1 s (SkipsBytes 1 s)
end

