-- ==== Sys2Proof/Tests/Slice0.lean ====
section
/-! SUPPORT. Tests. Expected results are the spec's: the worked examples and vectors of 95_test_vectors.md (named in each
comment), the encodings of 30_encoding.md, and the examples of the rules. Then the well-formedness smoke tests, the words
written out from the encodings, and a witness for every statement that has hypotheses. -/

namespace Sys2Proof.Tests

open Sys2Proof.Machine

/-- The state a result goes on to. -/
def nextOf (o : Result) : Option State :=
  match o with
  | .next t => some t
  | .fault _ => none
  | .refused _ => none

theorem eq_next_of_nextOf {o : Result} {t : State} (h : nextOf o = some t) : o = .next t := by
  cases o with
  | next u => exact congrArg _ (Option.some.inj h)
  | fault r => cases h
  | refused r => cases h

/-- `s` with bytes stored from an address on. -/
def place (s : State) (a : Word) : List Byte → State
  | [] => s
  | x :: xs => place (s.memWrite a x) (a + 1) xs

/-- The reset state with bytes placed from `pc` on, and the pc there. -/
def at_ (pc : Word) (bytes : List Byte) : State := { place State.reset pc bytes with pc := pc }

/-- What a step goes on to. -/
def after (p : PcOverflow) (s : State) : Option State := nextOf (stepUnder p s)

/-! ### Register file and flags (RF1 to RF9) -/

/-- RF1, RF2 -/
theorem test_pair_write_then_half_write :
    ((State.reset.write16 .bc 0xBEEF#16).read16 .bc = 0xBEEF#16 ∧ (State.reset.write16 .bc 0xBEEF#16).b = 0xBE#8) ∧
    ((State.reset.write16 .bc 0xBEEF#16).write8 .c 0x01#8).read16 .bc = 0xBE01#16 := by decide

/-- RF4, RF5 -/
theorem test_write_f_masks : (State.reset.write8 .f 0xFF#8).f = 0xF0#8 ∧ (State.reset.write8 .f 0x0F#8).f = 0x00#8 := by
  decide

/-- RF7, RF8 -/
theorem test_set_flags :
    ((State.reset.setFlag .z true).setFlag .c true).f = 0x90#8 ∧
    (((State.reset.setFlag .z true).setFlag .c true).setFlag .z false).f = 0x10#8 := by decide

/-- A write of 0x00 leaves the canonical form: nothing listed (R33, R43). -/
theorem test_write_zero_removes : ((State.reset.memWrite 5#16 1#8).memWrite 5#16 0#8) = State.reset := by decide

/-! ### Load-immediate-16 (L1 to L10) -/

/-- L1 -/
theorem test_ld_bc : (after .fault (at_ 0 [0x01, 0x34, 0x12])).map (fun t => (t.b, t.c, t.pc, t.f)) =
    some (0x12#8, 0x34#8, 3#16, 0#8) := by decide

/-- L4 -/
theorem test_ld_bc_immediate_is_data : (after .fault (at_ 0 [0x01, 0xCB, 0x7C])).map (fun t => t.read16 .bc) =
    some 0x7CCB#16 := by decide

/-- L2 -/
theorem test_ld_de : (after .fault ((at_ 0 [0x11, 0x00, 0x00]).write16 .de 0xFFFF#16)).map (fun t => (t.d, t.e, t.pc)) =
    some (0#8, 0#8, 3#16) := by decide

/-- L5 -/
theorem test_ld_hl_keeps_flags : (after .fault { at_ 0 [0x21, 0x01, 0x02] with f := 0xA0 }).map (fun t => (t.h, t.l, t.f)) =
    some (0x02#8, 0x01#8, 0xA0#8) := by decide

/-- L6, L7, L8 -/
theorem test_ld_hl_at_the_top :
    after .fault (at_ 0xFFFC [0x21, 0xAA, 0xBB]) =
      some { at_ 0xFFFC [0x21, 0xAA, 0xBB] with h := 0xBB, l := 0xAA, pc := 0xFFFF } ∧
    after .fault (at_ 0xFFFD [0x21, 0xAA, 0xBB]) = some { at_ 0xFFFD [0x21, 0xAA, 0xBB] with faulted := true } ∧
    after .wrap (at_ 0xFFFD [0x21, 0xAA, 0xBB]) =
      some { at_ 0xFFFD [0x21, 0xAA, 0xBB] with h := 0xBB, l := 0xAA, pc := 0x0000 } := by decide

/-- L10 -/
theorem test_ld_hl_wraps : (after .wrap (at_ 0xFFFF [0x21, 0xAA, 0xBB])).map (fun t => (t.read16 .hl, t.pc)) =
    some (0xBBAA#16, 2#16) := by decide

/-! ### XOR (X1 to X11) -/

/-- X1 -/
theorem test_xor_b : (after .fault { at_ 0 [0xA8] with a := 0xFF, b := 0x0F }).map (fun t => (t.a, t.b, t.f, t.pc)) =
    some (0xF0#8, 0x0F#8, 0x00#8, 1#16) := by decide

/-- X3 -/
theorem test_xor_c : (after .fault { at_ 0 [0xA9] with a := 0x5A, c := 0x5A }).map (fun t => (t.a, t.c, t.f)) =
    some (0x00#8, 0x5A#8, 0x80#8) := by decide

/-- X4 -/
theorem test_xor_d : (after .fault (at_ 0 [0xAA])).map (fun t => (t.a, t.f)) = some (0x00#8, 0x80#8) := by decide

/-- X5 -/
theorem test_xor_e : (after .fault { at_ 0 [0xAB] with e := 0x01 }).map (fun t => (t.a, t.f)) = some (0x01#8, 0x00#8) := by
  decide

/-- X6 -/
theorem test_xor_h_clears_flags :
    (after .fault { at_ 0 [0xAC] with a := 0x01, h := 0x01, f := 0xF0 }).map (fun t => (t.a, t.f)) =
      some (0x00#8, 0x80#8) := by decide

/-- X7 -/
theorem test_xor_l_clears_flags :
    (after .fault { at_ 0 [0xAD] with a := 0x01, f := 0xF0 }).map (fun t => (t.a, t.f)) = some (0x01#8, 0x00#8) := by decide

/-- X8 -/
theorem test_xor_mem :
    (after .fault { (at_ 0 [0xAE]).memWrite 0xC000 0x3C with a := 0xFF, h := 0xC0 }).map
      (fun t => (t.a, t.f, t.memRead 0xC000)) = some (0xC3#8, 0x00#8, 0x3C#8) := by decide

/-- X9: the operand is the opcode byte. -/
theorem test_xor_mem_own_opcode : (after .fault { at_ 0 [0xAE] with a := 0xAE }).map (fun t => (t.a, t.f)) =
    some (0x00#8, 0x80#8) := by decide

/-- X2 -/
theorem test_xor_a : (after .fault { at_ 0 [0xAF] with a := 0x5A }).map (fun t => (t.a, t.f)) = some (0x00#8, 0x80#8) := by
  decide

/-- X10, X11 -/
theorem test_xor_b_at_the_top :
    (after .fault { at_ 0xFFFF [0xA8] with a := 0xFF, b := 0x0F }).map (fun t => (t.faulted, t.a, t.f, t.pc)) =
      some (true, 0xFF#8, 0x00#8, 0xFFFF#16) ∧
    (after .wrap { at_ 0xFFFF [0xA8] with a := 0xFF, b := 0x0F }).map (fun t => (t.faulted, t.a, t.f, t.pc)) =
      some (false, 0xF0#8, 0x00#8, 0x0000#16) := by decide

/-! ### Bit-test (B1 to B15) -/

/-- B1, B2, B3 -/
theorem test_bit_h :
    (after .fault { at_ 0 [0xCB, 0x7C] with h := 0x80 }).map (fun t => (t.f, t.h, t.pc)) = some (0x20#8, 0x80#8, 2#16) ∧
    (after .fault { at_ 0 [0xCB, 0x7C] with h := 0x80, f := 0x10 }).map State.f = some 0x30#8 ∧
    (after .fault { at_ 0 [0xCB, 0x7C] with h := 0x7F }).map State.f = some 0xA0#8 := by decide

/-- B4 -/
theorem test_bit_a : (after .fault { at_ 0 [0xCB, 0x47] with a := 0x01 }).map (fun t => (t.f, t.a)) =
    some (0x20#8, 0x01#8) := by decide

/-- B7 -/
theorem test_bit_b_keeps_carry : (after .fault { at_ 0 [0xCB, 0x40] with f := 0x50 }).map State.f = some 0xB0#8 := by decide

/-- B9 -/
theorem test_bit_c : (after .fault { at_ 0 [0xCB, 0x71] with c := 0x40, f := 0xF0 }).map State.f = some 0x30#8 := by decide

/-- B10 -/
theorem test_bit_d : (after .fault { at_ 0 [0xCB, 0x62] with d := 0xEF }).map State.f = some 0xA0#8 := by decide

/-- B6 -/
theorem test_bit_e : (after .fault { at_ 0 [0xCB, 0x6B] with e := 0xFF }).map State.f = some 0x20#8 := by decide

/-- B11 -/
theorem test_bit_l : (after .fault { at_ 0 [0xCB, 0x55] with l := 0x04 }).map State.f = some 0x20#8 := by decide

/-- B13 -/
theorem test_bit_mem : (after .fault { (at_ 0 [0xCB, 0x7E]).memWrite 0xC000 0x01 with h := 0xC0 }).map State.f =
    some 0xA0#8 := by decide

/-- B14, B15: the operand is a byte of the instruction itself. -/
theorem test_bit_mem_own_bytes :
    (after .fault (at_ 0 [0xCB, 0x7E])).map State.f = some 0x20#8 ∧
    (after .fault { at_ 0 [0xCB, 0x46] with l := 0x01 }).map State.f = some 0xA0#8 := by decide

/-! ### Escape, prefixed no-ops (P1v to P8v) and no-ops (U1 to U7) -/

/-- The example of R105. -/
theorem test_escape : (after .fault (at_ 0x0100 [0xCB, 0x7C])).map (fun t => (t.f, t.pc)) = some (0xA0#8, 0x0102#16) := by
  decide

/-- P6v, P7v -/
theorem test_escape_at_the_top :
    (after .fault (at_ 0xFFFE [0xCB, 0x7C])).map (fun t => (t.faulted, t.f, t.pc)) = some (true, 0x00#8, 0xFFFE#16) ∧
    (after .wrap (at_ 0xFFFE [0xCB, 0x7C])).map (fun t => (t.faulted, t.f, t.pc)) = some (false, 0xA0#8, 0x0000#16) := by
  decide

/-- P1v, P3v -/
theorem test_cb_nop_low :
    after .fault { at_ 0 [0xCB, 0x00] with b := 0x80, f := 0x10 } =
      some { at_ 0 [0xCB, 0x00] with b := 0x80, f := 0x10, pc := 2 } ∧
    after .fault (at_ 0 [0xCB, 0x3F]) = some { at_ 0 [0xCB, 0x3F] with pc := 2 } := by decide

/-- P2v, P4v: CB does not nest. -/
theorem test_cb_nop_high :
    after .fault (at_ 0 [0xCB, 0xCB]) = some { at_ 0 [0xCB, 0xCB] with pc := 2 } ∧
    after .fault (at_ 0 [0xCB, 0x80]) = some { at_ 0 [0xCB, 0x80] with pc := 2 } := by decide

/-- U1, U5, U6 -/
theorem test_nop :
    after .fault State.reset = some { State.reset with pc := 1 } ∧
    after .fault (at_ 0xFFFF []) = some { at_ 0xFFFF [] with faulted := true } ∧
    after .wrap (at_ 0xFFFF []) = some { at_ 0xFFFF [] with pc := 0 } := by decide

/-- U2, U4 -/
theorem test_unknown :
    after .fault (at_ 0 [0x31, 0x00, 0xC0]) = some { at_ 0 [0x31, 0x00, 0xC0] with pc := 1 } ∧
    after .fault (at_ 0xFFFE [0xFF]) = some { at_ 0xFFFE [0xFF] with pc := 0xFFFF } := by decide

/-- U7 -/
theorem test_faulted_step_changes_nothing :
    after .fault { at_ 0 [0xAF] with faulted := true } = some { at_ 0 [0xAF] with faulted := true } := by decide

/-- The spec's default of `PC_OVERFLOW` is fault (R7). -/
theorem test_step_takes_the_default : nextOf (step (at_ 0xFFFF [])) = some { at_ 0xFFFF [] with faulted := true } := by
  decide

/-! ### Well-formedness: a term each check refuses -/

theorem test_unknown_byte_is_no_load : (Instr.unknown 0x11#8).wellFormed = false := by decide
theorem test_unknown_byte_is_no_xor :
    (Instr.unknown 0xA8#8).wellFormed = false ∧ (Instr.unknown 0xAF#8).wellFormed = false := by decide
theorem test_unknown_byte_is_no_escape : (Instr.unknown 0xCB#8).wellFormed = false := by decide
theorem test_unknown_byte_is_no_nop : (Instr.unknown 0x00#8).wellFormed = false := by decide
theorem test_unknown_byte_well_formed :
    (Instr.unknown 0x31#8).wellFormed = true ∧ (Instr.unknown 0xA7#8).wellFormed = true ∧
    (Instr.unknown 0xB0#8).wellFormed = true := by decide

/-! ### Decoding: a word for each constructor, written out from the encodings of 30_encoding.md -/

theorem test_decode_loads :
    decodeBytes [0b00000001#8, 0x34#8, 0x12#8] = .ok (.ldBC 0x1234#16, []) ∧
    decodeBytes [0b00010001#8, 0x78#8, 0x56#8] = .ok (.ldDE 0x5678#16, []) ∧
    decodeBytes [0b00100001#8, 0x00#8, 0xC0#8, 0xAF#8] = .ok (.ldHL 0xC000#16, [0xAF#8]) := by decide

theorem test_decode_xors :
    decodeBytes [0b10101000#8] = .ok (.xorB, []) ∧ decodeBytes [0b10101001#8] = .ok (.xorC, []) ∧
    decodeBytes [0b10101010#8] = .ok (.xorD, []) ∧ decodeBytes [0b10101011#8] = .ok (.xorE, []) ∧
    decodeBytes [0b10101100#8] = .ok (.xorH, []) ∧ decodeBytes [0b10101101#8] = .ok (.xorL, []) ∧
    decodeBytes [0b10101110#8] = .ok (.xorMem, []) ∧ decodeBytes [0b10101111#8] = .ok (.xorA, []) := by decide

theorem test_decode_bits :
    decodeBytes [0xCB#8, 0b01000000#8] = .ok (.bitB 0#3, []) ∧ decodeBytes [0xCB#8, 0b01001001#8] = .ok (.bitC 1#3, []) ∧
    decodeBytes [0xCB#8, 0b01010010#8] = .ok (.bitD 2#3, []) ∧ decodeBytes [0xCB#8, 0b01011011#8] = .ok (.bitE 3#3, []) ∧
    decodeBytes [0xCB#8, 0b01100100#8] = .ok (.bitH 4#3, []) ∧ decodeBytes [0xCB#8, 0b01101101#8] = .ok (.bitL 5#3, []) ∧
    decodeBytes [0xCB#8, 0b01110110#8] = .ok (.bitMem 6#3, []) ∧
    decodeBytes [0xCB#8, 0b01111111#8] = .ok (.bitA 7#3, []) := by decide

theorem test_decode_no_ops :
    decodeBytes [0xCB#8, 0b00111111#8] = .ok (.cbNopLow 0x3F#6, []) ∧
    decodeBytes [0xCB#8, 0b10000001#8] = .ok (.cbNopHigh 1#7, []) ∧
    decodeBytes [0x00#8] = .ok (.nop, []) ∧ decodeBytes [0x76#8] = .ok (.unknown 0x76#8, []) := by decide

/-- The primary table alone gives the escape, with its byte not yet decoded (R62, R105). -/
theorem test_decode_escape : decodeInstr 0xCB#8 0x7C#8 0x00#8 = .escape 0x7C#8 := by decide

theorem test_decode_refuses_short_lists :
    decodeBytes [] = .error .noBytes ∧ decodeBytes [0x21#8, 0x00#8] = .error (.truncated 0x21#8) ∧
    decodeBytes [0xCB#8] = .error (.truncated 0xCB#8) := by decide

/-- Words of opcode_table.json, in the table's own numbering. -/
theorem test_table_words :
    decodeTableWord 8 0x11 = some (.ldDE 0#16) ∧ decodeTableWord 8 0xCB = some (.escape 0#8) ∧
    decodeTableWord 16 0xCB47 = some (.bitA 0#3) ∧ decodeTableWord 16 0xCB80 = some (.cbNopHigh 0#7) ∧
    decodeTableWord 16 0xCB00 = some (.cbNopLow 0#6) ∧ decodeTableWord 8 0x00 = some .nop := by decide

/-- The next step fetches and runs the placed word. -/
theorem test_with_fetch_word :
    (nextOf (step (State.reset.withFetchWord 16 0xCB40))).map (fun t => (t.f, t.pc)) = some (0xA0#8, 2#16) ∧
    (nextOf (step (State.reset.withFetchWord 8 0x21))).map (fun t => (t.h, t.l, t.pc)) = some (0#8, 0#8, 3#16) := by decide

/-! ### Witnesses: a concrete state and operands for the hypotheses of each statement -/

theorem witness_CellWriteReadsBack : Reg.l ≠ Reg.f := by decide

theorem witness_PairWriteSplitsIntoItsCells :
    ((Pair.bc, Reg.b, Reg.c) : Pair × Reg × Reg) ∈ [(.bc, .b, .c), (.de, .d, .e), (.hl, .h, .l)] ∧
    ((Pair.hl, Reg.h, Reg.l) : Pair × Reg × Reg) ∈ [(.bc, .b, .c), (.de, .d, .e), (.hl, .h, .l)] := by decide

theorem witness_PairsAliasTheirCells : Pair.hl ≠ Pair.bc := by decide

theorem witness_FlagSetTouchesOneBit : State.Inv { State.reset with f := 0xF0 } ∧ Flag.c ∉ [Flag.z] ∧ 3 < 4 := by decide

theorem witness_MemoryHoldsTheLastByteStored :
    (at_ 0xFFFF [0xA8]).mem.wf ∧ (0x0000#16 : Word) ≠ 0xFFFF#16 := by decide

theorem witness_MemoriesThatReadAlikeAreEqual :
    (at_ 0 [0xA8]).mem.wf ∧ ((at_ 0 [0xA8]).memWrite 7#16 0#8).mem.wf ∧
    KeepsMemory (at_ 0 [0xA8]) ((at_ 0 [0xA8]).memWrite 7#16 0#8) :=
  ⟨by decide, by decide, fun _ => rfl⟩

theorem witness_PrimaryTableByteByByte :
    (0xA7#8 : Byte) ∉ [0x01#8, 0x11#8, 0x21#8, 0xCB#8] ∧ (0xA7#8 : Byte) < 0xA8#8 ∧
    (0xB0#8 : Byte) ∉ [0x01#8, 0x11#8, 0x21#8, 0xCB#8] ∧ 0xAF#8 < (0xB0#8 : Byte) ∧
    decodePrimary 0x31#8 = .unknown := by decide

theorem witness_RFieldSelectsTheOperand : ((0b111#3, Reg.a) : BitVec 3 × Reg) ∈ regFields := by decide

theorem witness_PrefixedTableByteByByte :
    (0x3F#8 : Byte) < 0x40#8 ∧ 0x7F#8 < (0x80#8 : Byte) ∧ decodePrefixed 0x40#8 ≠ .unknown ∧
    decodePrefixed 0x40#8 = decodePrefixed 0x40#8 ∧ decodePrefixed 0x7F#8 = .bit 7#3 .a ∧
    decodePrefixed 0x80#8 = .unknown := by decide

theorem witness_LengthComesFromTheFirstByte :
    (0xCC#8 : Byte) ∉ [0x01#8, 0x11#8, 0x21#8, 0xCB#8] ∧
    decodeBytes [0x21#8, 0x00#8, 0xC0#8, 0xAF#8] = .ok (.ldHL 0xC000#16, [0xAF#8]) := by decide

theorem witness_OnlyTruncatedBytesAreRefused :
    opLength 0x01#8 ≤ [0x34#8, 0x12#8].length + 1 ∧ [0x34#8].length + 1 < opLength 0x01#8 := by decide

theorem witness_DecodingAnEncodedInstructionGivesItBack :
    (Instr.bitMem 7#3).wellFormed = true ∧ ∀ op, Instr.bitMem 7#3 ≠ .escape op := ⟨rfl, by simp⟩

theorem witness_EncodingADecodedInstructionGivesItsBytes :
    decodeBytes [0xCB#8, 0xFF#8, 0x01#8] = .ok (.cbNopHigh 0x7F#7, [0x01#8]) := by decide

/-- Both disjuncts of the hypothesis, at the last address a one-byte instruction does not overflow at and the first it
does. -/
theorem witness_StepRunsTheDecodedInstruction :
    ((at_ 0xFFFE [0xA8]).faulted = false ∧ (at_ 0xFFFE [0xA8]).pc.toNat + opLength ((at_ 0xFFFE [0xA8]).memRead 0xFFFE) ≤ 0xFFFF ∧
      decodeBytes [(at_ 0xFFFE [0xA8]).memRead 0xFFFE, (at_ 0xFFFE [0xA8]).memRead 0xFFFF, (at_ 0xFFFE [0xA8]).memRead 0] =
        .ok (.xorB, [0#8, 0#8])) ∧
    ((at_ 0xFFFF [0xCB, 0x40]).faulted = false ∧
      decodeBytes [(at_ 0xFFFF [0xCB, 0x40]).memRead 0xFFFF, (at_ 0xFFFF [0xCB, 0x40]).memRead 0,
        (at_ 0xFFFF [0xCB, 0x40]).memRead 1] = .ok (.bitB 0#3, [0#8])) := by decide

theorem witness_TopOfMemoryFollowsThePolicy :
    (at_ 0xFFFD [0x01]).faulted = false ∧
    0xFFFF < (at_ 0xFFFD [0x01]).pc.toNat + opLength ((at_ 0xFFFD [0x01]).memRead (at_ 0xFFFD [0x01]).pc) := by decide

/-- The first overflowing address of each length, and the last that does not overflow. -/
theorem witness_PcOverflowRaisedExactlyAtTheTop :
    ((at_ 0xFFFD [0x11]).faulted = false ∧ (after .fault (at_ 0xFFFD [0x11])).map State.faulted = some true ∧
      (at_ 0xFFFD [0x11]).memRead 0xFFFD ∈ [0x01#8, 0x11#8, 0x21#8] ∧
      (after .fault (at_ 0xFFFC [0x11])).map State.faulted = some false) ∧
    ((after .fault (at_ 0xFFFE [0xCB])).map State.faulted = some true ∧ (at_ 0xFFFE [0xCB]).memRead 0xFFFE = 0xCB#8 ∧
      (after .fault (at_ 0xFFFD [0xCB])).map State.faulted = some false) ∧
    ((after .fault (at_ 0xFFFF [0xAF])).map State.faulted = some true ∧
      (at_ 0xFFFF [0xAF]).memRead 0xFFFF ∉ [0x01#8, 0x11#8, 0x21#8, 0xCB#8] ∧
      (after .fault (at_ 0xFFFE [0xAF])).map State.faulted = some false) ∧
    (after .wrap (at_ 0xFFFF [0xAF])).map State.faulted = some false := by decide

theorem witness_FaultedStateIsStuckUntilReset :
    ((at_ 0xFFFF []).faulted = false ∧ (after .fault (at_ 0xFFFF [])).map State.faulted = some true) ∧
    (State.raisePcOverflow State.reset).faulted = true ∧
    nextOf (actUnder .fault (.writeByte 0 1) State.reset.raisePcOverflow) =
      some { State.reset with mem := [(0, 1#8)], faulted := true } ∧
    nextOf (actUnder .fault .construct State.reset.raisePcOverflow) = some State.reset ∧
    nextOf (runResult .fault 2 State.reset) = some { State.reset with pc := 2 } := by decide

theorem witness_WrapPolicyNeverFaults : Reachable .wrap { at_ 0 [0xAF] with f := 0x80, pc := 1 } :=
  ⟨[.writeByte 0 0xAF, .callStep], eq_next_of_nextOf (by decide)⟩

theorem witness_EveryStepCompletes :
    (at_ 0xFFFF []).faulted = false ∧ (after .fault (at_ 0xFFFF [])).map State.faulted = some true := by decide

theorem witness_PcMovesByTheInstructionLength :
    (at_ 0xFFFC [0x01, 0x34, 0x12]).faulted = false ∧
    (after .fault (at_ 0xFFFC [0x01, 0x34, 0x12])).map (fun t => (t.faulted, t.pc)) = some (false, 0xFFFF#16) := by decide

theorem witness_NoInstructionWritesMemory :
    (nextOf (exec .xorMem (at_ 0 [0xAE]))).isSome = true ∧ (nextOf (runUnder .wrap 2 (at_ 0 [0xAE]))).isSome = true := by
  decide

/-- A memory that differs from the state's at an address the step does not read. -/
theorem witness_StepDependsOnlyOnTheBytesItReads :
    (∀ a ∈ (at_ 0 [0xAE]).stepReads,
      ({ at_ 0 [0xAE] with mem := [(0, 0xAE#8), (1, 0xFF#8)] } : State).memRead a = (at_ 0 [0xAE]).memRead a) ∧
    (after .fault (at_ 0 [0xAE])).isSome = true := by
  have h : (at_ 0 [0xAE]).stepReads = [0#16, 0#16] := by decide
  refine ⟨fun a ha => ?_, by decide⟩
  rw [h] at ha
  obtain rfl : a = 0#16 := by simpa using ha
  decide

theorem witness_FlagsWrittenByFamily :
    ((nextOf (exec .xorA State.reset)).isSome = true ∧ Instr.xorA ∈ [Instr.xorB, .xorA]) ∧
    (nextOf (exec (.bitMem 7#3) State.reset)).isSome = true ∧ (nextOf (exec (.ldHL 0xFFFF#16) State.reset)).isSome = true ∧
    (nextOf (exec (.unknown 0xFF#8) State.reset)).isSome = true ∧
    (decodePrefixed 0x80#8 = .unknown ∧ (nextOf (exec (.escape 0x80#8) State.reset)).isSome = true) := by decide

/-- Each antecedent: a step that changes A, a pair, F alone, and Carry. -/
theorem witness_EachRegisterIsWrittenByItsFamilyAlone :
    (after .fault { at_ 0 [0xA8] with b := 1, f := 0x10 }).map (fun t => (t.a, t.f, t.getFlag .c)) =
      some (1#8, 0#8, false) ∧
    (after .fault (at_ 0 [0x01, 0, 1])).map State.b = some 1#8 ∧ (after .fault (at_ 0 [0x11, 1, 0])).map State.e = some 1#8 ∧
    (after .fault (at_ 0 [0x21, 1, 0])).map State.l = some 1#8 ∧
    (after .fault (at_ 0 [0xCB, 0x7F])).map State.f = some 0xA0#8 := by decide

theorem witness_EveryStepKeepsTheInvariant :
    State.Inv { at_ 0xFFFF [0xAE] with f := 0xF0 } ∧ (nextOf (exec .xorMem (at_ 0xFFFF [0xAE]))).isSome = true ∧
    (nextOf (step (at_ 0xFFFF [0xAE]))).isSome = true ∧
    (nextOf (actUnder .wrap (.writeByte 0xFFFF 0) (at_ 0xFFFF [0xAE]))).isSome = true := by decide

theorem witness_LowNibbleOfFIsZeroWhenReachable : Reachable .fault State.reset := ⟨[], rfl⟩

theorem witness_ReachableFlagValues : Reachable .fault { at_ 0 [0xCB, 0x7C] with f := 0xA0, pc := 2 } :=
  ⟨[.writeByte 0 0xCB, .writeByte 1 0x7C, .callStep], eq_next_of_nextOf (by decide)⟩

/-- The premises of each clause, at the top of memory and with F = 0xA0. -/
theorem witness_EveryStepKeepsTheReachableFlagValues :
    HasReachableFlags { at_ 0xFFFE [0xCB, 0x40] with f := 0xA0 } ∧
    (nextOf (exec (.bitB 0#3) { at_ 0xFFFE [0xCB, 0x40] with f := 0xA0 })).map State.f = some 0xA0#8 ∧
    (nextOf (step { at_ 0xFFFE [0xCB, 0x40] with f := 0xA0 })).map State.f = some 0xA0#8 ∧
    (nextOf (actUnder .wrap .callStep { at_ 0xFFFE [0xCB, 0x40] with f := 0xA0, b := 1 })).map State.f = some 0x20#8 :=
  ⟨by decide, by decide, by decide, by decide⟩

theorem witness_RunsMoveThePcUpward :
    nextOf (runResult .fault 1 (at_ 0xFFFC [0x01, 0, 0])) = some { at_ 0xFFFC [0x01, 0, 0] with pc := 0xFFFF } := by decide

/-- A run whose state is faulted, one whose state is not, and a safe longer run. -/
theorem witness_RunsHaveAResultUnlessFaulted :
    (nextOf (runUnder .fault 1 (at_ 0xFFFF []))).map State.faulted = some true ∧
    (nextOf (runUnder .fault 1 State.reset)).map State.faulted = some false ∧
    (nextOf (runResult .fault (1 + 1) State.reset)).isSome = true := by decide

theorem witness_UnknownBytesAreSkippedOneAtATime :
    (at_ 0xFFFD [0x3E, 0x06]).faulted = false ∧ (at_ 0xFFFD [0x3E, 0x06]).pc.toNat + 2 ≤ 0xFFFF ∧
    ∀ k, k < 2 → decodePrimary ((at_ 0xFFFD [0x3E, 0x06]).memRead ((at_ 0xFFFD [0x3E, 0x06]).pc + BitVec.ofNat 16 k)) =
      .unknown := by decide

theorem witness_CallerActionsDoWhatTheSpecSays : State.reset.Inv ∧ (1#16 : Word) ≠ 0#16 := by decide

theorem witness_CallerWriteIsSeenByTheNextFetch :
    (at_ 0xFFFC []).mem.wf ∧ (at_ 0xFFFC []).faulted = false ∧ (at_ 0xFFFC []).pc.toNat + opLength 0x21#8 ≤ 0xFFFF := by decide

/-- Both clauses of `StepOr`: the first overflowing address and the last that is not, for a 3-byte instruction. -/
theorem witness_LoadImmediateStep :
    ((0x01#8, Pair.bc) : Byte × Pair) ∈ ldOpcodes ∧
    (at_ 0xFFFC [0x01]).memRead 0xFFFC = 0x01#8 ∧ (at_ 0xFFFC [0x01]).faulted = false ∧
    (at_ 0xFFFC [0x01]).pc.toNat + 3 ≤ 0xFFFF ∧
    (at_ 0xFFFD [0x01]).memRead 0xFFFD = 0x01#8 ∧ (at_ 0xFFFD [0x01]).faulted = false ∧
    0xFFFF < (at_ 0xFFFD [0x01]).pc.toNat + 3 := by decide

theorem witness_XorRegisterStep :
    ((0b111#3, Reg.a) : BitVec 3 × Reg) ∈ regFields ∧
    (at_ 0xFFFE [0xAF]).memRead 0xFFFE = 0b10101#5 ++ 0b111#3 ∧ (at_ 0xFFFE [0xAF]).faulted = false ∧
    (at_ 0xFFFE [0xAF]).pc.toNat + 1 ≤ 0xFFFF ∧
    (at_ 0xFFFF [0xAF]).memRead 0xFFFF = 0b10101#5 ++ 0b111#3 ∧ 0xFFFF < (at_ 0xFFFF [0xAF]).pc.toNat + 1 := by decide

theorem witness_XorMemoryStep :
    (at_ 0xFFFE [0xAE]).memRead 0xFFFE = 0xAE#8 ∧ (at_ 0xFFFE [0xAE]).faulted = false ∧
    (at_ 0xFFFE [0xAE]).pc.toNat + 1 ≤ 0xFFFF ∧
    (at_ 0xFFFF [0xAE]).memRead 0xFFFF = 0xAE#8 ∧ 0xFFFF < (at_ 0xFFFF [0xAE]).pc.toNat + 1 := by decide

theorem witness_BitRegisterStep :
    ((0b000#3, Reg.b) : BitVec 3 × Reg) ∈ regFields ∧ (at_ 0xFFFD [0xCB, 0x78]).faulted = false ∧
    (at_ 0xFFFD [0xCB, 0x78]).memRead 0xFFFD = 0xCB#8 ∧
    (at_ 0xFFFD [0xCB, 0x78]).memRead 0xFFFE = 0b01#2 ++ 7#3 ++ 0b000#3 ∧
    (at_ 0xFFFD [0xCB, 0x78]).pc.toNat + 2 ≤ 0xFFFF ∧
    (at_ 0xFFFE [0xCB, 0x78]).memRead 0xFFFE = 0xCB#8 ∧
    (at_ 0xFFFE [0xCB, 0x78]).memRead 0xFFFF = 0b01#2 ++ 7#3 ++ 0b000#3 ∧
    0xFFFF < (at_ 0xFFFE [0xCB, 0x78]).pc.toNat + 2 := by decide

theorem witness_BitMemoryStep :
    (at_ 0xFFFD [0xCB, 0x7E]).faulted = false ∧ (at_ 0xFFFD [0xCB, 0x7E]).memRead 0xFFFD = 0xCB#8 ∧
    (at_ 0xFFFD [0xCB, 0x7E]).memRead 0xFFFE = 0b01#2 ++ 7#3 ++ 0b110#3 ∧
    (at_ 0xFFFD [0xCB, 0x7E]).pc.toNat + 2 ≤ 0xFFFF ∧
    (at_ 0xFFFE [0xCB, 0x7E]).memRead 0xFFFF = 0b01#2 ++ 7#3 ++ 0b110#3 ∧
    0xFFFF < (at_ 0xFFFE [0xCB, 0x7E]).pc.toNat + 2 := by decide

/-- A bit-test at each end of 0x40..0x7F, and an unknown byte beside it. -/
theorem witness_EscapeStep :
    (at_ 0xFFFD [0xCB, 0x40]).faulted = false ∧ (at_ 0xFFFD [0xCB, 0x40]).memRead 0xFFFD = 0xCB#8 ∧
    decodePrefixed ((at_ 0xFFFD [0xCB, 0x40]).memRead 0xFFFE) = .bit 0#3 .b ∧
    decodePrefixed ((at_ 0xFFFD [0xCB, 0x80]).memRead 0xFFFE) = .unknown ∧
    (at_ 0xFFFD [0xCB, 0x40]).pc.toNat + 2 ≤ 0xFFFF ∧ 0xFFFF < (at_ 0xFFFE [0xCB, 0x40]).pc.toNat + 2 := by decide

theorem witness_PrefixedNoOpStep :
    (at_ 0xFFFD [0xCB, 0x3F]).faulted = false ∧ (at_ 0xFFFD [0xCB, 0x3F]).memRead 0xFFFD = 0xCB#8 ∧
    (at_ 0xFFFD [0xCB, 0x3F]).memRead 0xFFFE < 0x40#8 ∧ 0x7F#8 < (at_ 0xFFFD [0xCB, 0x80]).memRead 0xFFFE ∧
    (at_ 0xFFFD [0xCB, 0x3F]).pc.toNat + 2 ≤ 0xFFFF ∧ 0xFFFF < (at_ 0xFFFE [0xCB, 0x3F]).pc.toNat + 2 := by decide

theorem witness_UnknownByteStep :
    (at_ 0xFFFE [0xA7]).faulted = false ∧
    (at_ 0xFFFE [0xA7]).memRead 0xFFFE ∉ [0x01#8, 0x11#8, 0x21#8, 0xCB#8] ∧ (at_ 0xFFFE [0xA7]).memRead 0xFFFE < 0xA8#8 ∧
    0xAF#8 < (at_ 0xFFFE [0xB0]).memRead 0xFFFE ∧ (at_ 0xFFFE [0xA7]).pc.toNat + 1 ≤ 0xFFFF ∧
    0xFFFF < (at_ 0xFFFF [0xA7]).pc.toNat + 1 := by decide

/-- Bits 3..0 of F zero, the premise of the byte value of F after BIT, with C set. -/
theorem witness_BitTestResult : ({ State.reset with f := 0x10 } : State).f &&& 0x0F#8 = 0x00#8 := by decide

/-- The index premises of the F write. -/
theorem witness_FlagCellWriteMasksLowNibble : 4 ≤ 4 ∧ 3 < 4 := by decide

end Sys2Proof.Tests
end

/-! ### The caller's interactions (R16, R143) -/

namespace Sys2Proof.Machine

/-- The caller has no interaction that writes a register (R143): a byte write leaves each cell as it was. -/
@[simp] theorem read8_memWrite (s : State) (a : Word) (v : Byte) (r : Reg) :
    (s.memWrite a v).read8 r = s.read8 r := by
  cases r <;> rfl

theorem keepsCells_memWrite (s : State) (a : Word) (v : Byte) : KeepsCells s (s.memWrite a v) [] :=
  fun r _ => read8_memWrite s a v r

/-- A byte write leaves F as it is (R22) and keeps memory in its canonical form (log 2). -/
theorem memWrite_inv {s : State} (hs : s.Inv) (a : Word) (v : Byte) : (s.memWrite a v).Inv := by
  obtain ⟨hflags, hmem⟩ := hs
  exact ⟨hflags, memWrite_wf hmem a v⟩

/-! What each interaction answers (R143), an equation per constructor. -/

section
variable (p : PcOverflow) (s : State)

@[simp] theorem actUnder_construct : actUnder p .construct s = .next State.reset := rfl
@[simp] theorem actUnder_writeByte (a : Word) (v : Byte) :
    actUnder p (.writeByte a v) s = .next (s.memWrite a v) := rfl
@[simp] theorem actUnder_callStep : actUnder p .callStep s = stepUnder p s := rfl
@[simp] theorem actUnder_observe : actUnder p .observe s = .next s := rfl
@[simp] theorem actUnder_stop : actUnder p .stop s = .next s := rfl

end

/-- Settles O37: an equation for each interaction; for the byte write, the rules of `memWrite` (the byte read back, the
other bytes, the cells, pc and `faulted`) and the invariant it keeps. -/
theorem callerActionsDoWhatTheSpecSays : Obligations.CallerActionsDoWhatTheSpecSays := by
  intro p s hs
  have hmem : s.mem.wf := hs.2
  refine ⟨actUnder_construct p s, actUnder_callStep p s, actUnder_observe p s, actUnder_stop p s, fun a v => ?_⟩
  have hother : ∀ b, b ≠ a → (s.memWrite a v).memRead b = s.memRead b := fun b hb => memRead_memWrite_other s v hb
  exact ⟨s.memWrite a v, actUnder_writeByte p s a v, memRead_memWrite_same hmem a v, hother,
    keepsCells_memWrite s a v, memWrite_pc s a v, memWrite_faulted s a v, memWrite_inv hs a v⟩

end Sys2Proof.Machine

/-! ### Register cells (R20 to R23) -/

namespace Sys2Proof.Machine

/-- A cell other than F reads as it was last written (R21). -/
theorem read8_write8_same (s : State) {r : Reg} (hr : r ≠ .f) (v : Byte) : (s.write8 r v).read8 r = v := by
  cases r
  case f => exact absurd rfl hr
  all_goals rfl

/-- A write of one cell leaves every other as it was (R21, R23). -/
theorem read8_write8_other (s : State) {q r : Reg} (h : r ≠ q) (v : Byte) : (s.write8 q v).read8 r = s.read8 r := by
  cases q <;> cases r <;> simp_all

theorem keepsCells_write8 (s : State) (r : Reg) (v : Byte) : KeepsCells s (s.write8 r v) [r] :=
  fun _ hq => read8_write8_other s (List.ne_of_not_mem_cons hq) v

/-- Memory reads alike where the memory is the same data (R43). -/
theorem keepsMemory_of_mem_eq {s t : State} (h : t.mem = s.mem) : KeepsMemory s t :=
  fun a => congrArg (Memory.read · a.toNat) h

/-- Settles O2: the rules of `write8` for the cell written and for the others. -/
theorem cellWriteReadsBack : Obligations.CellWriteReadsBack :=
  fun s r v hr => ⟨read8_write8_same s hr v, keepsCells_write8 s r v, keepsMemory_of_mem_eq (write8_mem s v r),
    write8_pc s v r, write8_faulted s v r⟩

/-! ### The two nibbles of F (R22, R23) -/

theorem getLsbD_lowNibble (x : Byte) (i : Nat) : (x &&& 0x0F#8).getLsbD i = (decide (i < 4) && x.getLsbD i) := by
  by_cases hi : i < 8
  · interval_cases i <;> simp
  · simp [BitVec.getLsbD_of_ge _ _ (Nat.le_of_not_lt hi)]

theorem getLsbD_highNibble (x : Byte) (i : Nat) : (x &&& 0xF0#8).getLsbD i = (decide (4 ≤ i) && x.getLsbD i) := by
  by_cases hi : i < 8
  · interval_cases i <;> simp
  · simp [BitVec.getLsbD_of_ge _ _ (Nat.le_of_not_lt hi)]

/-- What F reads as after a write of the byte `v`, bit by bit (R23). -/
theorem getLsbD_read8_write8_f (s : State) (v : Byte) (i : Nat) :
    ((s.write8 .f v).read8 .f).getLsbD i = (decide (4 ≤ i) && v.getLsbD i) :=
  getLsbD_highNibble v i

/-- Settles O3: the masked byte bit by bit, and the frame every cell's write has. -/
theorem flagCellWriteMasksLowNibble : Obligations.FlagCellWriteMasksLowNibble := by
  intro s v
  refine ⟨rfl, fun i hi => ?_, fun i hi => ?_, keepsCells_write8 s .f v, keepsMemory_of_mem_eq rfl, rfl, rfl⟩
  · rw [getLsbD_read8_write8_f]; simp [hi]
  · rw [getLsbD_read8_write8_f]; simp [hi]

/-! ### Register pairs (R24 to R26) -/

section Pairs
variable (s : State) (p : Pair) (v : Word)

/-- The word of two bytes is (high << 8) | low (R8, R24). -/
theorem wordOf_eq_shift_or (hi lo : Byte) : wordOf hi lo = hi.setWidth 16 <<< 8 ||| lo.setWidth 16 := by
  apply BitVec.eq_of_getLsbD_eq
  intro i h
  rw [getLsbD_wordOf]
  by_cases h8 : i < 8
  · simp [h8, h]
  · have hlo : lo.getLsbD i = false := BitVec.getLsbD_of_ge lo i (Nat.le_of_not_lt h8)
    simp [h8, h, hlo]

theorem hiReg_ne_f : hiReg p ≠ .f := by cases p <;> decide
theorem loReg_ne_f : loReg p ≠ .f := by cases p <;> decide
theorem hiReg_ne_loReg : hiReg p ≠ loReg p := by cases p <;> decide

@[simp] theorem read8_write16_hiReg : (s.write16 p v).read8 (hiReg p) = hiByte v := by
  rw [State.write16, read8_write8_other _ (hiReg_ne_loReg p), read8_write8_same _ (hiReg_ne_f p)]

@[simp] theorem read8_write16_loReg : (s.write16 p v).read8 (loReg p) = loByte v :=
  read8_write8_same _ (loReg_ne_f p) _

/-- A pair's write changes its two cells alone (R25). -/
theorem keepsCells_write16 : KeepsCells s (s.write16 p v) [hiReg p, loReg p] := by
  intro r hr
  obtain ⟨hhi, hlo⟩ : r ≠ hiReg p ∧ r ≠ loReg p := by simpa using hr
  rw [State.write16, read8_write8_other _ hlo, read8_write8_other _ hhi]

/-- Settles O4: the two writes of `write16` are of different cells, neither of them F. -/
theorem pairWriteSplitsIntoItsCells : Obligations.PairWriteSplitsIntoItsCells := by
  intro s
  refine ⟨⟨rfl, rfl, rfl⟩, fun x hx v => ?_⟩
  obtain ⟨p, -, rfl⟩ : ∃ p, p ∈ [Pair.bc, .de, .hl] ∧ (p, hiReg p, loReg p) = x := List.mem_map.1 hx
  exact ⟨wordOf_eq_shift_or _ _, read8_write16_hiReg s p v, read8_write16_loReg s p v, keepsCells_write16 s p v,
    keepsMemory_of_mem_eq (write16_mem s v p), write16_pc s v p, write16_faulted s v p⟩

@[simp] theorem hiByte_read16 : hiByte (s.read16 p) = s.read8 (hiReg p) := hiByte_wordOf _ _
@[simp] theorem loByte_read16 : loByte (s.read16 p) = s.read8 (loReg p) := loByte_wordOf _ _

theorem read16_write16_same : (s.write16 p v).read16 p = v := by
  rw [State.read16, read8_write16_hiReg, read8_write16_loReg, wordOf_hiByte_loByte]

/-- The pairs share no cell (R26). -/
theorem pair_cells_disjoint {p q : Pair} (h : q ≠ p) :
    hiReg q ∉ [hiReg p, loReg p] ∧ loReg q ∉ [hiReg p, loReg p] := by
  revert h; cases p <;> cases q <;> decide

theorem read16_write16_other {p q : Pair} (h : q ≠ p) : (s.write16 p v).read16 q = s.read16 q := by
  obtain ⟨hhi, hlo⟩ := pair_cells_disjoint h
  rw [State.read16, keepsCells_write16 s p v _ hhi, keepsCells_write16 s p v _ hlo, State.read16]

theorem read16_write8_hiReg (x : Byte) : (s.write8 (hiReg p) x).read16 p = wordOf x (loByte (s.read16 p)) := by
  rw [loByte_read16, State.read16, read8_write8_same _ (hiReg_ne_f p), read8_write8_other _ (hiReg_ne_loReg p).symm]

theorem read16_write8_loReg (x : Byte) : (s.write8 (loReg p) x).read16 p = wordOf (hiByte (s.read16 p)) x := by
  rw [hiByte_read16, State.read16, read8_write8_same _ (loReg_ne_f p), read8_write8_other _ (hiReg_ne_loReg p)]

end Pairs

/-- Settles O5: the laws of a pair from those of its two cells, which are different cells and no other pair's. -/
theorem pairsAliasTheirCells : Obligations.PairsAliasTheirCells :=
  fun s p v x => ⟨read16_write16_same s p v, read8_write16_hiReg s p v, read8_write16_loReg s p v,
    read16_write8_hiReg s p x, read16_write8_loReg s p x, fun _ hq => read16_write16_other s v hq⟩

/-! ### The reset state (R33) -/

/-- Settles O1: every cell, and so every flag and pair, is 0 at reset, and no address is listed in memory. -/
theorem resetStateHoldsSpecValues : Obligations.ResetStateHoldsSpecValues := by
  refine ⟨fun r => ?_, fun fl => ?_, fun p => ?_, rfl, fun a => rfl, rfl⟩
  · cases r <;> rfl
  · cases fl <;> rfl
  · cases p <;> rfl

/-! ### Flags (R27) -/

/-- Two flags stand in two bits of F (R27). -/
theorem flagPos_injective : Function.Injective flagPos := by
  intro x y; cases x <;> cases y <;> decide

/-- The flags stand in bits 7..4 of F (R27). -/
theorem flagPos_bounds (fl : Flag) : 4 ≤ flagPos fl ∧ flagPos fl < 8 := by cases fl <;> decide

theorem getLsbD_flagMask (fl : Flag) (i : Nat) : (flagMask fl).getLsbD i = decide (i = flagPos fl) := by
  obtain ⟨-, h⟩ := flagPos_bounds fl
  rw [flagMask, ← BitVec.twoPow_eq, BitVec.getLsbD_twoPow]
  simp [h, eq_comm]

/-- Setting a flag writes its bit of F and no other (R27). -/
theorem getLsbD_setFlag_f (s : State) (fl : Flag) (v : Bool) (i : Nat) :
    (s.setFlag fl v).f.getLsbD i = if i = flagPos fl then v else s.f.getLsbD i := by
  by_cases hi : i = flagPos fl
  · cases v <;> simp [State.setFlag, getLsbD_flagMask, hi]
  · cases v
    · have hbound : s.f.getLsbD i = true → i < 8 := BitVec.lt_of_getLsbD
      simpa [State.setFlag, getLsbD_flagMask, hi] using hbound
    · simp [State.setFlag, getLsbD_flagMask, hi]

theorem keepsFlags_setFlag (s : State) (fl : Flag) (v : Bool) : KeepsFlags s (s.setFlag fl v) [fl] := by
  intro fl' h
  have hpos : flagPos fl' ≠ flagPos fl := flagPos_injective.ne (List.ne_of_not_mem_cons h)
  rw [State.getFlag, getLsbD_setFlag_f, if_neg hpos, State.getFlag]

theorem keepsLowNibble_setFlag (s : State) (fl : Flag) (v : Bool) : KeepsLowNibble s (s.setFlag fl v) := by
  apply BitVec.eq_of_getLsbD_eq
  intro i _
  obtain ⟨hpos, -⟩ := flagPos_bounds fl
  simp only [read8_f, getLsbD_lowNibble, getLsbD_setFlag_f]
  by_cases hi : i < 4
  · rw [if_neg (by omega)]
  · simp [hi]

/-- A change of F alone changes no other cell. -/
theorem keepsCells_setFlag (s : State) (fl : Flag) (v : Bool) : KeepsCells s (s.setFlag fl v) [.f] := by
  intro r hr
  cases r
  case f => simp at hr
  all_goals rfl

/-- Settles O6: the write of a flag bit by bit. -/
theorem flagSetTouchesOneBit : Obligations.FlagSetTouchesOneBit := by
  intro s
  refine ⟨⟨rfl, rfl, rfl, rfl⟩, fun hs i hi => ?_, fun v i hi => ?_, fun fl v => ?_⟩
  · obtain ⟨hflags, -⟩ := hs
    have hbit := congrArg (BitVec.getLsbD · i) hflags
    rw [getLsbD_lowNibble] at hbit
    simpa [hi] using hbit
  · rw [getLsbD_read8_write8_f]; simp [hi]
  · have hset : (s.setFlag fl v).getFlag fl = v := by simp [State.getFlag, getLsbD_setFlag_f]
    exact ⟨hset, keepsFlags_setFlag s fl v, keepsLowNibble_setFlag s fl v, keepsCells_setFlag s fl v,
      keepsMemory_of_mem_eq rfl, rfl, rfl⟩

end Sys2Proof.Machine

/-! ### Memory: the canonical form is one form (log 2) -/

namespace Sys2Proof.Machine

theorem Memory.read_head (k : Nat) (x : Byte) (m : Memory) : Memory.read ((k, x) :: m) k = x := if_pos rfl

theorem Memory.read_tail {k a : Nat} (h : a ≠ k) (x : Byte) (m : Memory) :
    Memory.read ((k, x) :: m) a = Memory.read m a := if_neg h

/-- A memory whose addresses are all above `k` does not read, at `k`, as a canonical memory that lists `k` first: the listed
byte is not what an unlisted address reads as. -/
theorem Memory.read_head_ne {k : Nat} {x : Byte} {m n : Memory} (hm : Memory.wf ((k, x) :: m)) (hn : ∀ y ∈ n, k < y.1) :
    Memory.read n k ≠ Memory.read ((k, x) :: m) k := by
  obtain ⟨-, -, hx, -⟩ := Memory.wf_cons.1 hm
  rw [Memory.read_of_lt hn, Memory.read_head]
  exact hx.symm

/-- Of two canonical memories that read alike, neither lists a first address below the other's. -/
theorem Memory.head_le_of_read_eq {k l : Nat} {x y : Byte} {m n : Memory} (hm : Memory.wf ((k, x) :: m))
    (hn : Memory.wf ((l, y) :: n)) (h : ∀ a < 65536, Memory.read ((k, x) :: m) a = Memory.read ((l, y) :: n) a) :
    l ≤ k := by
  obtain ⟨-, hk, -, -⟩ := Memory.wf_cons.1 hm
  obtain ⟨hl, -, -, -⟩ := Memory.wf_cons.1 hn
  by_contra hlt
  have habove : ∀ z ∈ (l, y) :: n, k < z.1 :=
    List.forall_mem_cons.2 ⟨Nat.lt_of_not_le hlt, fun z hz => (Nat.lt_of_not_le hlt).trans (hl z hz)⟩
  exact Memory.read_head_ne hm habove (h k hk).symm

/-- Canonical memories that read alike are the same list. -/
theorem Memory.ext_of_wf {m n : Memory} (hm : m.wf) (hn : n.wf) (h : ∀ a < 65536, m.read a = n.read a) : m = n := by
  induction m generalizing n with
  | nil =>
    cases n with
    | nil => rfl
    | cons z n =>
      obtain ⟨-, hl, -, -⟩ := Memory.wf_cons.1 hn
      exact absurd (h z.1 hl) (Memory.read_head_ne hn (by simp))
  | cons z m ih =>
    obtain ⟨k, x⟩ := z
    obtain ⟨hk, hk2, -, hm2⟩ := Memory.wf_cons.1 hm
    cases n with
    | nil => exact absurd (h k hk2).symm (Memory.read_head_ne hm (by simp))
    | cons w n =>
      obtain ⟨l, y⟩ := w
      obtain ⟨hl, -, -, hn2⟩ := Memory.wf_cons.1 hn
      obtain rfl : k = l := Nat.le_antisymm (Memory.head_le_of_read_eq hn hm fun a ha => (h a ha).symm)
        (Memory.head_le_of_read_eq hm hn h)
      obtain rfl : x = y := by simpa [Memory.read_head] using h k hk2
      have htail : ∀ a < 65536, Memory.read m a = Memory.read n a := by
        intro a ha
        by_cases hak : a = k
        · rw [hak, Memory.read_of_lt hk, Memory.read_of_lt hl]
        · simpa [Memory.read_tail hak] using h a ha
      rw [ih hm2 hn2 htail]

/-- Settles O8: equality of canonical lists, whose addresses are the 16-bit ones. -/
theorem memoriesThatReadAlikeAreEqual : Obligations.MemoriesThatReadAlikeAreEqual := by
  intro s t hs ht h
  refine Memory.ext_of_wf hs ht fun a ha => ?_
  simpa [State.memRead, Nat.mod_eq_of_lt ha] using (h (BitVec.ofNat 16 a)).symm

end Sys2Proof.Machine

/-! ### What an instruction leaves unchanged, and what it can do to F (R22, R28, R45) -/

namespace Sys2Proof.Machine

/-- An outcome goes on to one state. -/
theorem next_unique {o : Result} {t u : State} (h : o = .next t) (e : o = .next u) : t = u :=
  Host.Outcome.next.inj (h.symm.trans e)

/-- No instruction writes memory (R45), and none sets or clears `faulted` (R31, R87). -/
theorem exec_mem_faulted {i : Instr} {s t : State} (h : exec i s = .next t) :
    t.mem = s.mem ∧ t.faulted = s.faulted := by
  rcases exec_cases s i with ⟨p, d16, -, e⟩ | ⟨r, -, e⟩ | ⟨b, r, -, e⟩ | ⟨-, e⟩ | ⟨-, e⟩ <;>
    cases next_unique h e
  case inl => simp
  all_goals exact ⟨rfl, rfl⟩

/-- Everything an instruction can do to F (R28): keep it; clear it but for Z (XOR); or write bits 7..5, with N 0 and H 1, and
keep bits 4..0 (BIT). -/
theorem exec_f_cases {i : Instr} {s t : State} (h : exec i s = .next t) :
    t.f = s.f ∨ (t.f = 0x00#8 ∨ t.f = 0x80#8) ∨
    (t.f = 0x20#8 ||| (s.f &&& 0x1F#8) ∨ t.f = 0xA0#8 ||| (s.f &&& 0x1F#8)) := by
  rcases exec_cases s i with ⟨p, d16, -, e⟩ | ⟨r, -, e⟩ | ⟨b, r, -, e⟩ | ⟨-, e⟩ | ⟨-, e⟩ <;>
    cases next_unique h e
  · exact .inl (by simp)
  · refine .inr (.inl ?_)
    by_cases hz : s.a ^^^ s.readSrc r = 0x00#8 <;> simp [hz]
  · refine .inr (.inr ?_)
    by_cases hb : (s.readSrc r).getLsbD b.toNat <;> simp [hb]
  · exact .inl rfl
  · exact .inl rfl

/-! ### From instructions to steps and to the caller's interactions -/

section Preservation
variable {p : PcOverflow} {P : State → Prop} {s t : State}

/-- A step keeps what every instruction keeps, and what raising PcOverflow keeps where the policy raises it (R81, R84). -/
theorem stepUnder_preserves (hexec : ∀ i s t, P s → exec i s = .next t → P t)
    (hraise : p = .fault → ∀ s, P s → P s.raisePcOverflow) (hs : P s) (h : stepUnder p s = .next t) : P t := by
  rcases stepUnder_cases p s with ⟨-, e⟩ | ⟨-, hp, -, e⟩ | ⟨-, -, e⟩
  · exact next_unique h e ▸ hs
  · exact next_unique h e ▸ hraise hp s hs
  · exact hexec s.fetchInstr s t hs (e.symm.trans h)

/-- An interaction of the caller keeps what holds at reset and what byte writes and steps keep (R143). -/
theorem actUnder_preserves (hreset : P State.reset) (hwrite : ∀ s a v, P s → P (s.memWrite a v))
    (hstep : ∀ s t, P s → stepUnder p s = .next t → P t) (act : CallerAction) (hs : P s)
    (h : actUnder p act s = .next t) : P t := by
  cases act with
  | construct => exact next_unique h (actUnder_construct p s) ▸ hreset
  | writeByte a v => exact next_unique h (actUnder_writeByte p s a v) ▸ hwrite s a v hs
  | callStep => exact hstep s t hs h
  | observe => exact next_unique h (actUnder_observe p s) ▸ hs
  | stop => exact next_unique h (actUnder_stop p s) ▸ hs

end Preservation

/-! ### The invariant: bits 3..0 of F are zero (R22), and memory is canonical (log 2) -/

/-- No instruction changes a zero low nibble of F (R22). -/
theorem exec_lowNibble {i : Instr} {s t : State} (hs : s.f &&& 0x0F#8 = 0x00#8) (h : exec i s = .next t) :
    t.f &&& 0x0F#8 = 0x00#8 := by
  have bits_kept : ∀ f : Byte, f &&& 0x0F#8 = 0x00#8 →
      (0x20#8 ||| (f &&& 0x1F#8)) &&& 0x0F#8 = 0x00#8 ∧ (0xA0#8 ||| (f &&& 0x1F#8)) &&& 0x0F#8 = 0x00#8 := by decide
  rcases exec_f_cases h with e | (e | e) | (e | e) <;> rw [e]
  · exact hs
  · rfl
  · rfl
  · exact (bits_kept s.f hs).1
  · exact (bits_kept s.f hs).2

theorem exec_inv (i : Instr) (s t : State) (hs : s.Inv) (h : exec i s = .next t) : t.Inv := by
  obtain ⟨hflags, hmem⟩ := hs
  obtain ⟨hm, -⟩ := exec_mem_faulted h
  exact ⟨exec_lowNibble hflags h, hm ▸ hmem⟩

theorem stepUnder_inv (p : PcOverflow) (s t : State) (hs : s.Inv) (h : stepUnder p s = .next t) : t.Inv :=
  stepUnder_preserves exec_inv (fun _ _ hs => hs) hs h

/-- Settles O29: F is 0x00 at reset, and the empty memory is canonical. -/
theorem resetMeetsTheInvariant : Obligations.ResetMeetsTheInvariant := ⟨rfl, reset_wf⟩

theorem actUnder_inv (p : PcOverflow) (act : CallerAction) (s t : State) (hs : s.Inv)
    (h : actUnder p act s = .next t) : t.Inv :=
  actUnder_preserves resetMeetsTheInvariant (fun _ a v hs => memWrite_inv hs a v) (stepUnder_inv p) act hs h

/-- Settles O30: the instructions keep the invariant, as none writes memory and each keeps F, clears it but for Z, or keeps
its bits 4..0; steps and the caller's interactions follow. -/
theorem everyStepKeepsTheInvariant : Obligations.EveryStepKeepsTheInvariant :=
  ⟨exec_inv, stepUnder_inv Config.pcOverflow, actUnder_inv⟩

/-- Settles O31: the invariant, by induction over the caller's interactions. -/
theorem lowNibbleOfFIsZeroWhenReachable : Obligations.LowNibbleOfFIsZeroWhenReachable :=
  fun p _ hs => reachable_induction resetMeetsTheInvariant (actUnder_inv p) hs

/-! ### The flag values a program can reach (R34) -/

theorem exec_reachableFlags (i : Instr) (s t : State) (hs : HasReachableFlags s) (h : exec i s = .next t) :
    HasReachableFlags t := by
  have bit_closed : ∀ f ∈ [0x00#8, 0x20#8, 0x80#8, 0xA0#8],
      0x20#8 ||| (f &&& 0x1F#8) = 0x20#8 ∧ 0xA0#8 ||| (f &&& 0x1F#8) = 0xA0#8 := by decide
  obtain ⟨e20, eA0⟩ := bit_closed s.f hs
  show t.f ∈ _
  rcases exec_f_cases h with e | (e | e) | (e | e) <;> rw [e]
  · exact hs
  · decide
  · decide
  · rw [e20]; decide
  · rw [eA0]; decide

theorem stepUnder_reachableFlags (p : PcOverflow) (s t : State) (hs : HasReachableFlags s)
    (h : stepUnder p s = .next t) : HasReachableFlags t :=
  stepUnder_preserves exec_reachableFlags (fun _ _ hs => hs) hs h

theorem reset_reachableFlags : HasReachableFlags State.reset := by decide

theorem actUnder_reachableFlags (p : PcOverflow) (act : CallerAction) (s t : State) (hs : HasReachableFlags s)
    (h : actUnder p act s = .next t) : HasReachableFlags t :=
  actUnder_preserves reset_reachableFlags (fun _ _ _ hs => hs) (stepUnder_reachableFlags p) act hs h

/-- N and C are bits 6 and 4 of F, 0 in each of the four values (R34). -/
theorem reachableFlags_n_c (s : State) (hs : HasReachableFlags s) : s.getFlag .n = false ∧ s.getFlag .c = false := by
  have bits_zero : ∀ f ∈ [0x00#8, 0x20#8, 0x80#8, 0xA0#8], f.getLsbD 6 = false ∧ f.getLsbD 4 = false := by decide
  exact bits_zero s.f hs

/-- Settles O52: with C and the low nibble 0, BIT leaves 0x20 or 0xA0, XOR leaves 0x00 or 0x80, and nothing else writes F. -/
theorem everyStepKeepsTheReachableFlagValues : Obligations.EveryStepKeepsTheReachableFlagValues :=
  ⟨exec_reachableFlags, stepUnder_reachableFlags Config.pcOverflow, actUnder_reachableFlags, reachableFlags_n_c⟩

/-- Settles O32: the four values hold by induction over the caller's interactions, and give N and C. -/
theorem reachableFlagValues : Obligations.ReachableFlagValues := by
  intro p s hs
  have hf : HasReachableFlags s := reachable_induction reset_reachableFlags (actUnder_reachableFlags p) hs
  obtain ⟨hn, hc⟩ := reachableFlags_n_c s hf
  exact ⟨hn, hc, hf⟩

/-! ### The fault under `wrap` (R31) -/

theorem exec_not_faulted (i : Instr) (s t : State) (hs : s.faulted = false) (h : exec i s = .next t) :
    t.faulted = false := by
  obtain ⟨-, hf⟩ := exec_mem_faulted h
  exact hf.trans hs

/-- Under `wrap` no step raises PcOverflow (R84). -/
theorem stepUnder_wrap_not_faulted (s t : State) (hs : s.faulted = false) (h : stepUnder .wrap s = .next t) :
    t.faulted = false :=
  stepUnder_preserves (p := .wrap) (P := fun s => s.faulted = false) exec_not_faulted nofun hs h

/-- Settles O21: `faulted` is false at reset, and under `wrap` no interaction of the caller sets it. -/
theorem wrapPolicyNeverFaults : Obligations.WrapPolicyNeverFaults := by
  intro s hs
  have hreset : State.reset.faulted = false := rfl
  exact reachable_induction (P := fun s => s.faulted = false) hreset
    (fun act _ _ => actUnder_preserves hreset (fun _ _ _ hs => hs) stepUnder_wrap_not_faulted act) hs

end Sys2Proof.Machine

/-! ### What each family answers, and what part F has in it (R28) -/

namespace Sys2Proof.Machine

section Families
variable (s : State)

theorem exec_ldInstr_next (p : Pair) (d16 : Word) : exec (ldInstr p d16) s = .next ((s.write16 p d16).advance 3) :=
  (exec_ldInstr s p d16).trans (loadImm16_finish s p d16)

theorem exec_xorInstr_next (r : Src) :
    exec (xorInstr r) s = .next { s with
      a := s.a ^^^ s.readSrc r
      f := if s.a ^^^ s.readSrc r = 0x00#8 then 0x80#8 else 0x00#8
      pc := s.instrAddr 1 } :=
  (exec_xorInstr s r).trans (xorA_finish s r)

theorem exec_bitInstr_next (b : BitVec 3) (r : Src) :
    exec (bitInstr b r) s = .next { s with
      f := (if (s.readSrc r).getLsbD b.toNat then 0x00#8 else 0x80#8) ||| 0x20#8 ||| (s.f &&& 0x1F#8)
      pc := s.instrAddr 2 } :=
  (exec_bitInstr s b r).trans (bitTest_finish s b r)

/-- The escape runs the bit-test the prefixed table gives its byte (R105). -/
theorem exec_escape_of_bit {op : Byte} {b : BitVec 3} {r : Src} (h : decodePrefixed op = .bit b r) :
    exec (.escape op) s = exec (bitInstr b r) s := by
  rcases execEscape_cases s op with ⟨b', r', hd, e⟩ | ⟨hd, -⟩
  · obtain ⟨rfl, rfl⟩ : b = b' ∧ r = r' := by simpa using h.symm.trans hd
    exact e.trans (exec_bitInstr s b r).symm
  · cases h.symm.trans hd

/-- The escape skips the bytes the prefixed table does not name (R105, R106). -/
theorem exec_escape_of_unknown {op : Byte} (h : decodePrefixed op = .unknown) :
    exec (.escape op) s = .next (s.advance 2) := by
  rcases execEscape_cases s op with ⟨b, r, hd, -⟩ | ⟨-, e⟩
  · cases h.symm.trans hd
  · exact e.trans (skipPrefixed_eq s)

/-- F is no operand of XOR or BIT (R64). -/
@[simp] theorem readSrc_set_f (f : Byte) (r : Src) : ({ s with f := f } : State).readSrc r = s.readSrc r := by
  cases r <;> rfl

end Families

/-- A flag stays as it is where F does. -/
theorem keepsFlags_of_f_eq {s t : State} (h : t.f = s.f) (except : List Flag) : KeepsFlags s t except :=
  fun fl _ => congrArg (BitVec.getLsbD · (flagPos fl)) h

/-- The eight operands of XOR and BIT (R64). -/
def allSrcs : List Src := [.b, .c, .d, .e, .h, .l, .memHL, .a]

/-! #### The flags XOR, BIT and the others leave -/

theorem exec_xorInstr_flags {s t : State} {r : Src} (h : exec (xorInstr r) s = .next t) :
    t.getFlag .z = (t.read8 .a == 0x00#8) ∧ t.getFlag .n = false ∧ t.getFlag .h = false ∧ t.getFlag .c = false := by
  cases next_unique h (exec_xorInstr_next s r)
  by_cases hz : s.a ^^^ s.readSrc r = 0x00#8 <;> simp [State.getFlag, flagPos, hz]

theorem exec_bitInstr_flags {s t : State} {b : BitVec 3} {r : Src} (h : exec (bitInstr b r) s = .next t) :
    t.getFlag .z = !(s.readSrc r).getLsbD b.toNat ∧ t.getFlag .n = false ∧ t.getFlag .h = true ∧
      t.getFlag .c = s.getFlag .c := by
  cases next_unique h (exec_bitInstr_next s b r)
  by_cases hb : (s.readSrc r).getLsbD b.toNat <;> simp [State.getFlag, flagPos, hb]

theorem exec_ldInstr_f {s t : State} {p : Pair} {d16 : Word} (h : exec (ldInstr p d16) s = .next t) : t.f = s.f := by
  cases next_unique h (exec_ldInstr_next s p d16)
  simp

/-! #### Every flag is set without a look at F, or kept -/

/-- An instruction's effect on F, as a function of F alone, leaves a flag at one value whatever F was, or as it was. -/
def SetsOrKeeps (g : Byte → Byte) (fl : Flag) : Prop :=
  (∃ v, ∀ f, (g f).getLsbD (flagPos fl) = v) ∨ ∀ f, (g f).getLsbD (flagPos fl) = f.getLsbD (flagPos fl)

theorem setsOrKeeps_id (fl : Flag) : SetsOrKeeps id fl := .inr fun _ => rfl

theorem setsOrKeeps_const (x : Byte) (fl : Flag) : SetsOrKeeps (fun _ => x) fl := .inl ⟨_, fun _ => rfl⟩

/-- BIT sets Z, N and H, and keeps C (R28). -/
theorem setsOrKeeps_bit (x : Bool) (fl : Flag) :
    SetsOrKeeps (fun f => (if x then 0x00#8 else 0x80#8) ||| 0x20#8 ||| (f &&& 0x1F#8)) fl := by
  cases fl with
  | z => exact .inl ⟨!x, fun f => by cases x <;> simp [flagPos]⟩
  | n => exact .inl ⟨false, fun f => by cases x <;> simp [flagPos]⟩
  | h => exact .inl ⟨true, fun f => by cases x <;> simp [flagPos]⟩
  | c => exact .inr fun f => by cases x <;> simp [flagPos]

/-- F beforehand has a part only in the F that the instruction leaves, and there flag by flag: whatever F is, the instruction
goes on to one state but for F, and its F is a function of the old one that sets or keeps each flag (R28). -/
def ReadsNoFlag (i : Instr) (s : State) : Prop :=
  ∃ (u : State) (g : Byte → Byte), (∀ f, exec i { s with f := f } = .next { u with f := g f }) ∧
    ∀ fl, SetsOrKeeps g fl

section ReadsNoFlag
variable (s : State)

theorem readsNoFlag_ldInstr (p : Pair) (d16 : Word) : ReadsNoFlag (ldInstr p d16) s :=
  ⟨(s.write16 p d16).advance 3, id, fun f => by rw [exec_ldInstr_next]; cases p <;> rfl, setsOrKeeps_id⟩

theorem readsNoFlag_xorInstr (r : Src) : ReadsNoFlag (xorInstr r) s :=
  ⟨{ s with a := s.a ^^^ s.readSrc r, pc := s.instrAddr 1 }, _,
    fun f => by rw [exec_xorInstr_next, readSrc_set_f]; rfl,
    setsOrKeeps_const (if s.a ^^^ s.readSrc r = 0x00#8 then 0x80#8 else 0x00#8)⟩

theorem readsNoFlag_bitInstr (b : BitVec 3) (r : Src) : ReadsNoFlag (bitInstr b r) s :=
  ⟨{ s with pc := s.instrAddr 2 }, _, fun f => by rw [exec_bitInstr_next, readSrc_set_f]; rfl,
    setsOrKeeps_bit ((s.readSrc r).getLsbD b.toNat)⟩

theorem readsNoFlag_of_advance {i : Instr} (n : Nat) (h : ∀ s, exec i s = .next (s.advance n)) : ReadsNoFlag i s :=
  ⟨s.advance n, id, fun f => h { s with f := f }, setsOrKeeps_id⟩

/-- No instruction in scope reads a flag but to keep it (R28). -/
theorem readsNoFlag (i : Instr) : ReadsNoFlag i s := by
  rcases instr_family i with ⟨p, d16, rfl⟩ | ⟨r, rfl⟩ | ⟨b, r, rfl⟩ | ⟨n, rfl⟩ | ⟨n, rfl⟩ | rfl | ⟨op, rfl⟩ | ⟨op, rfl⟩
  · exact readsNoFlag_ldInstr s p d16
  · exact readsNoFlag_xorInstr s r
  · exact readsNoFlag_bitInstr s b r
  · exact readsNoFlag_of_advance s 2 skipPrefixed_eq
  · exact readsNoFlag_of_advance s 2 skipPrefixed_eq
  · exact readsNoFlag_of_advance s 1 skipPrimary_eq
  · exact readsNoFlag_of_advance s 1 skipPrimary_eq
  · cases hd : decodePrefixed op with
    | bit b r =>
      rw [ReadsNoFlag]
      simp only [exec_escape_of_bit _ hd]
      exact readsNoFlag_bitInstr s b r
    | unknown => exact readsNoFlag_of_advance s 2 fun s => exec_escape_of_unknown s hd

end ReadsNoFlag

/-- Another F beforehand gives the same state but for F, and there each flag of the first run or of the other F (R28). -/
theorem exec_set_f {i : Instr} {s t : State} (h : exec i s = .next t) (f : Byte) :
    ∃ u, exec i { s with f := f } = .next u ∧ { u with f := t.f } = t ∧
      ∀ fl, u.getFlag fl = t.getFlag fl ∨ u.getFlag fl = f.getLsbD (flagPos fl) := by
  obtain ⟨w, g, hg, hflags⟩ := readsNoFlag s i
  obtain rfl : t = { w with f := g s.f } := next_unique h (hg s.f)
  refine ⟨{ w with f := g f }, hg f, rfl, fun fl => ?_⟩
  rcases hflags fl with ⟨v, hv⟩ | hkept
  · exact .inl ((hv f).trans (hv s.f).symm)
  · exact .inr (hkept f)

/-- Settles O26: the flags of each family from its equation; that no flag is read, from `readsNoFlag`. -/
theorem flagsWrittenByFamily : Obligations.FlagsWrittenByFamily := by
  refine ⟨fun s t i hi h => ?_, fun s t b x hx h => ?_, fun s t d16 n6 n7 op i hi h => ?_, fun s t op hd h => ?_,
    fun i s t f h => exec_set_f h f, fun fl => ?_⟩
  · obtain ⟨r, -, rfl⟩ : ∃ r ∈ allSrcs, xorInstr r = i := List.mem_map.1 hi
    exact exec_xorInstr_flags h
  · obtain ⟨r, -, rfl⟩ : ∃ r ∈ allSrcs, (bitInstr b r, s.readSrc r) = x := List.mem_map.1 hx
    exact exec_bitInstr_flags h
  · have hf : t.f = s.f := by
      simp only [List.mem_cons, List.not_mem_nil, or_false] at hi
      rcases hi with rfl | rfl | rfl | rfl | rfl | rfl | rfl
      · exact exec_ldInstr_f (p := .bc) h
      · exact exec_ldInstr_f (p := .de) h
      · exact exec_ldInstr_f (p := .hl) h
      · cases next_unique h (skipPrefixed_eq s); rfl
      · cases next_unique h (skipPrefixed_eq s); rfl
      · cases next_unique h (skipPrimary_eq s); rfl
      · cases next_unique h (skipPrimary_eq s); rfl
    exact keepsFlags_of_f_eq hf []
  · cases next_unique h (exec_escape_of_unknown s hd)
    exact keepsFlags_of_f_eq rfl []
  · cases fl <;> rfl

end Sys2Proof.Machine

/-! ### What a step writes, from the bytes at the pc (R28, R90 to R110) -/

namespace Sys2Proof.Machine

/-! #### The bytes of each family -/

theorem decodePrimary_eq_loadImm16 {op : Byte} {q : Pair} (h : decodePrimary op = .loadImm16 q) :
    (op, q) ∈ ldOpcodes := by
  cases q <;> revert op <;> decide

theorem decodePrimary_eq_xor {op : Byte} {r : Src} (h : decodePrimary op = .xor r) : 0xA8#8 ≤ op ∧ op ≤ 0xAF#8 := by
  cases r <;> revert op <;> decide

theorem decodePrimary_eq_escape {op : Byte} (h : decodePrimary op = .escape) : op = 0xCB#8 := by
  revert op; decide

theorem decodePrefixed_eq_bit {op : Byte} {b : BitVec 3} {r : Src} (h : decodePrefixed op = .bit b r) :
    0x40#8 ≤ op ∧ op ≤ 0x7F#8 := by
  have hne : decodePrefixed op ≠ .unknown := by simp [h]
  clear h; revert op; decide

@[simp] theorem fetchByte_zero (s : State) : s.fetchByte 0 = s.memRead s.pc := by
  simp [State.fetchByte, State.instrAddr]

theorem fetchByte_one (s : State) : s.fetchByte 1 = s.memRead (s.pc + 1#16) := rfl

/-- The fetched instruction, by the family the primary table gives the byte at the pc (R62). -/
theorem fetchInstr_cases (s : State) :
    (∃ q d16, (s.memRead s.pc, q) ∈ ldOpcodes ∧ s.fetchInstr = ldInstr q d16) ∨
    (∃ r, (0xA8#8 ≤ s.memRead s.pc ∧ s.memRead s.pc ≤ 0xAF#8) ∧ s.fetchInstr = xorInstr r) ∨
    (s.memRead s.pc = 0xCB#8 ∧ s.fetchInstr = .escape (s.memRead (s.pc + 1#16))) ∨
    (s.fetchInstr = .nop ∨ ∃ op, s.fetchInstr = .unknown op) := by
  rw [State.fetchInstr, decodeInstr, fetchByte_zero, fetchByte_one]
  cases hd : decodePrimary (s.memRead s.pc) with
  | loadImm16 q => exact .inl ⟨q, _, decodePrimary_eq_loadImm16 hd, rfl⟩
  | xor r => exact .inr (.inl ⟨r, decodePrimary_eq_xor hd, rfl⟩)
  | escape => exact .inr (.inr (.inl ⟨decodePrimary_eq_escape hd, rfl⟩))
  | unknown =>
    refine .inr (.inr (.inr ?_))
    by_cases h0 : s.memRead s.pc = 0x00#8
    · exact .inl (if_pos h0)
    · exact .inr ⟨_, if_neg h0⟩

/-! #### The cells each family writes -/

/-- A move of the pc changes no cell (R82). -/
@[simp] theorem read8_advance (s : State) (n : Nat) (r : Reg) : (s.advance n).read8 r = s.read8 r := by
  cases r <;> rfl

theorem exec_ldInstr_keepsCells {s t : State} {q : Pair} {d16 : Word} (h : exec (ldInstr q d16) s = .next t) :
    KeepsCells s t [hiReg q, loReg q] := by
  cases next_unique h (exec_ldInstr_next s q d16)
  intro r hr
  rw [read8_advance, keepsCells_write16 s q d16 r hr]

theorem exec_xorInstr_keepsCells {s t : State} {r : Src} (h : exec (xorInstr r) s = .next t) :
    KeepsCells s t [.a, .f] := by
  cases next_unique h (exec_xorInstr_next s r)
  intro q hq
  cases q
  case a | f => simp at hq
  all_goals rfl

theorem exec_bitInstr_keepsCells {s t : State} {b : BitVec 3} {r : Src} (h : exec (bitInstr b r) s = .next t) :
    KeepsCells s t [.f] := by
  cases next_unique h (exec_bitInstr_next s b r)
  intro q hq
  cases q
  case f => simp at hq
  all_goals rfl

/-- Everything a step can write to the cells, with the bytes it does so on: none; the cells of a pair, on that pair's load;
A and F, on an XOR; or F but for C, on the escape with a BIT. -/
theorem stepUnder_cells_cases {p : PcOverflow} {s t : State} (h : stepUnder p s = .next t) :
    KeepsCells s t [] ∨
    (∃ q, (s.memRead s.pc, q) ∈ ldOpcodes ∧ KeepsCells s t [hiReg q, loReg q]) ∨
    ((0xA8#8 ≤ s.memRead s.pc ∧ s.memRead s.pc ≤ 0xAF#8) ∧ KeepsCells s t [.a, .f]) ∨
    ((s.memRead s.pc = 0xCB#8 ∧ 0x40#8 ≤ s.memRead (s.pc + 1#16) ∧ s.memRead (s.pc + 1#16) ≤ 0x7F#8) ∧
      KeepsCells s t [.f] ∧ t.getFlag .c = s.getFlag .c) := by
  rcases stepUnder_cases p s with ⟨-, e⟩ | ⟨-, -, -, e⟩ | ⟨-, -, e⟩
  · cases next_unique h e
    exact .inl fun r _ => rfl
  · cases next_unique h e
    exact .inl fun r _ => by cases r <;> rfl
  · rw [e] at h
    rcases fetchInstr_cases s with ⟨q, d16, hop, hi⟩ | ⟨r, hop, hi⟩ | ⟨hop, hi⟩ | hi | ⟨op, hi⟩ <;> rw [hi] at h
    · exact .inr (.inl ⟨q, hop, exec_ldInstr_keepsCells h⟩)
    · exact .inr (.inr (.inl ⟨hop, exec_xorInstr_keepsCells h⟩))
    · cases hd : decodePrefixed (s.memRead (s.pc + 1#16)) with
      | bit b r =>
        rw [exec_escape_of_bit s hd] at h
        obtain ⟨-, -, -, hc⟩ := exec_bitInstr_flags h
        exact .inr (.inr (.inr ⟨⟨hop, decodePrefixed_eq_bit hd⟩, exec_bitInstr_keepsCells h, hc⟩))
      | unknown =>
        cases next_unique h (exec_escape_of_unknown s hd)
        exact .inl fun r _ => read8_advance s 2 r
    · cases next_unique h (skipPrimary_eq s)
      exact .inl fun r _ => read8_advance s 1 r
    · cases next_unique h (skipPrimary_eq s)
      exact .inl fun r _ => read8_advance s 1 r

section
variable {p : PcOverflow} {s t : State} (h : stepUnder p s = .next t)
include h

/-- A is written by an XOR alone. -/
theorem stepUnder_changes_a (hne : t.a ≠ s.a) : 0xA8#8 ≤ s.memRead s.pc ∧ s.memRead s.pc ≤ 0xAF#8 := by
  rcases stepUnder_cells_cases h with hk | ⟨q, -, hk⟩ | ⟨hop, -⟩ | ⟨-, hk, -⟩
  · exact absurd (hk .a (by decide)) hne
  · exact absurd (hk .a (by cases q <;> decide)) hne
  · exact hop
  · exact absurd (hk .a (by decide)) hne

/-- A cell of a pair is written by that pair's load alone. -/
theorem stepUnder_changes_pair (q : Pair)
    (hne : t.read8 (hiReg q) ≠ s.read8 (hiReg q) ∨ t.read8 (loReg q) ≠ s.read8 (loReg q)) :
    (s.memRead s.pc, q) ∈ ldOpcodes := by
  have hwritten : ∀ except, KeepsCells s t except → ¬ (hiReg q ∉ except ∧ loReg q ∉ except) :=
    fun _ hk ⟨hhi, hlo⟩ => hne.elim (· (hk _ hhi)) (· (hk _ hlo))
  rcases stepUnder_cells_cases h with hk | ⟨q', hop, hk⟩ | ⟨-, hk⟩ | ⟨-, hk, -⟩
  · exact absurd (by simp) (hwritten _ hk)
  · by_cases hq : q = q'
    · exact hq ▸ hop
    · exact absurd (pair_cells_disjoint hq) (hwritten _ hk)
  · exact absurd (by cases q <;> decide) (hwritten _ hk)
  · exact absurd (by cases q <;> decide) (hwritten _ hk)

/-- F is written by an XOR or by the escape with a BIT alone. -/
theorem stepUnder_changes_f (hne : t.f ≠ s.f) :
    (0xA8#8 ≤ s.memRead s.pc ∧ s.memRead s.pc ≤ 0xAF#8) ∨
    (s.memRead s.pc = 0xCB#8 ∧ 0x40#8 ≤ s.memRead (s.pc + 1#16) ∧ s.memRead (s.pc + 1#16) ≤ 0x7F#8) := by
  rcases stepUnder_cells_cases h with hk | ⟨q, -, hk⟩ | ⟨hop, -⟩ | ⟨hop, -, -⟩
  · exact absurd (hk .f (by decide)) hne
  · exact absurd (hk .f (by cases q <;> decide)) hne
  · exact .inl hop
  · exact .inr hop

/-- Carry is written by an XOR alone: a BIT keeps it. -/
theorem stepUnder_changes_carry (hne : t.getFlag .c ≠ s.getFlag .c) :
    0xA8#8 ≤ s.memRead s.pc ∧ s.memRead s.pc ≤ 0xAF#8 := by
  have hf : t.f ≠ s.f := fun e => hne (keepsFlags_of_f_eq e [] .c (by simp))
  rcases stepUnder_cells_cases h with hk | ⟨q, -, hk⟩ | ⟨hop, -⟩ | ⟨-, -, hc⟩
  · exact absurd (hk .f (by decide)) hf
  · exact absurd (hk .f (by cases q <;> decide)) hf
  · exact hop
  · exact absurd hc hne

end

/-- Settles O27: for each register, the case of `stepUnder_cells_cases` that writes it. -/
theorem eachRegisterIsWrittenByItsFamilyAlone : Obligations.EachRegisterIsWrittenByItsFamilyAlone := by
  intro p s t h
  refine ⟨stepUnder_changes_a h, fun hne => ?_, fun hne => ?_, fun hne => ?_, stepUnder_changes_f h,
    stepUnder_changes_carry h⟩
  · simpa [ldOpcodes] using stepUnder_changes_pair h .bc hne
  · simpa [ldOpcodes] using stepUnder_changes_pair h .de hne
  · simpa [ldOpcodes] using stepUnder_changes_pair h .hl hne

end Sys2Proof.Machine

/-! ### Byte writes and what they read back as (R43) -/

namespace Sys2Proof.Machine

/-- Any list of byte writes keeps the canonical form (log 2). -/
theorem foldl_memWrite_wf {s : State} (hs : s.mem.wf) (ws : List (Word × Byte)) :
    (ws.foldl (fun t w => t.memWrite w.1 w.2) s).mem.wf := by
  induction ws generalizing s with
  | nil => exact hs
  | cons w ws ih => exact ih (memWrite_wf hs w.1 w.2)

/-- After a list of byte writes an address reads as the last of them to it stored, and as before where none is to it. -/
theorem memRead_foldl_memWrite {s : State} (hs : s.mem.wf) (ws : List (Word × Byte)) (a : Word) :
    (ws.foldl (fun t w => t.memWrite w.1 w.2) s).memRead a =
      ((ws.reverse.find? (fun w => w.1 = a)).map (fun w => w.2)).getD (s.memRead a) := by
  induction ws using List.reverseRecOn with
  | nil => rfl
  | append_singleton ws w ih =>
    rw [List.foldl_concat, List.reverse_concat]
    by_cases hw : w.1 = a
    · rw [List.find?_cons_of_pos (by simpa using hw), ← hw]
      exact memRead_memWrite_same (foldl_memWrite_wf hs ws) w.1 w.2
    · rw [List.find?_cons_of_neg (by simpa using hw), memRead_memWrite_other _ _ (Ne.symm hw), ih]

/-- Settles O7: one write by the rules of `memWrite`; a list of writes by induction on its last, from the zero bytes of
reset. -/
theorem memoryHoldsTheLastByteStored : Obligations.MemoryHoldsTheLastByteStored :=
  ⟨fun s a v hs => ⟨memRead_memWrite_same hs a v, fun _ hb => memRead_memWrite_other s v hb, keepsCells_memWrite s a v,
    memWrite_pc s a v, memWrite_faulted s a v⟩, memRead_foldl_memWrite reset_wf⟩

end Sys2Proof.Machine

/-! ### Runs, and the memory they leave as it was (R45, R88) -/

namespace Sys2Proof.Machine

/-- A run keeps what each of its steps keeps (R88). -/
theorem runUnder_preserves {p : PcOverflow} {P : State → Prop}
    (hstep : ∀ s t, P s → stepUnder p s = .next t → P t) {n : Nat} {s t : State} (hs : P s)
    (h : runUnder p n s = .next t) : P t := by
  induction n generalizing s with
  | zero => exact next_unique rfl h ▸ hs
  | succ n ih =>
    rw [runUnder] at h
    split at h
    next u hu => exact ih (hstep s u hs hu) h
    next => cases h
    next => cases h

/-- No step writes memory (R45). -/
theorem stepUnder_mem {p : PcOverflow} {s t : State} (h : stepUnder p s = .next t) : t.mem = s.mem := by
  refine stepUnder_preserves (P := fun u => u.mem = s.mem) (fun i u w hu hw => ?_) (fun _ _ hu => hu) rfl h
  obtain ⟨hm, -⟩ := exec_mem_faulted hw
  exact hm.trans hu

/-- No run writes memory (R45). -/
theorem runUnder_mem {p : PcOverflow} {n : Nat} {s t : State} (h : runUnder p n s = .next t) : t.mem = s.mem :=
  runUnder_preserves (P := fun u => u.mem = s.mem) (fun _ _ hu hw => (stepUnder_mem hw).trans hu) rfl h

/-- Settles O24: instructions, and so steps and runs, leave the memory the same data, which then reads alike. -/
theorem noInstructionWritesMemory : Obligations.NoInstructionWritesMemory := by
  refine ⟨fun i s t h => ?_, fun p n s t h => ?_⟩
  · obtain ⟨hm, -⟩ := exec_mem_faulted h
    exact ⟨keepsMemory_of_mem_eq hm, hm⟩
  · exact ⟨keepsMemory_of_mem_eq (runUnder_mem h), runUnder_mem h⟩

end Sys2Proof.Machine

/-! ### Bytes placed at the pc are what the next step fetches (R50, R81) -/

namespace Sys2Proof.Machine

/-- `A(k)` and `A(l)` are two addresses where `k` and `l` differ modulo 2^16 (R81). -/
theorem instrAddr_ne (s : State) {k l : Nat} (h : BitVec.ofNat 16 k ≠ BitVec.ofNat 16 l) :
    s.instrAddr k ≠ s.instrAddr l :=
  fun e => h ((BitVec.add_right_inj s.pc).1 e)

section PlaceAtPc
variable (s : State) (op b1 b2 : Byte)

@[simp] theorem placeAtPc_pc : (s.placeAtPc (op, b1, b2)).pc = s.pc := rfl
@[simp] theorem placeAtPc_faulted : (s.placeAtPc (op, b1, b2)).faulted = s.faulted := rfl

/-- The writes move no instruction address: the fetch reads where they stored. -/
theorem fetchByte_placeAtPc (k : Nat) :
    (s.placeAtPc (op, b1, b2)).fetchByte k = (s.placeAtPc (op, b1, b2)).memRead (s.instrAddr k) := rfl

variable {s} (hs : s.mem.wf)
include hs

theorem fetchByte_zero_placeAtPc : (s.placeAtPc (op, b1, b2)).fetchByte 0 = op := by
  rw [fetchByte_placeAtPc, State.placeAtPc, memRead_memWrite_other _ _ (instrAddr_ne s (by decide)),
    memRead_memWrite_other _ _ (instrAddr_ne s (by decide)), memRead_memWrite_same hs]

theorem fetchByte_one_placeAtPc : (s.placeAtPc (op, b1, b2)).fetchByte 1 = b1 := by
  rw [fetchByte_placeAtPc, State.placeAtPc, memRead_memWrite_other _ _ (instrAddr_ne s (by decide)),
    memRead_memWrite_same (memWrite_wf hs _ _)]

theorem fetchByte_two_placeAtPc : (s.placeAtPc (op, b1, b2)).fetchByte 2 = b2 :=
  memRead_memWrite_same (memWrite_wf (memWrite_wf hs _ _) _ _) _ _

theorem fetchInstr_placeAtPc : (s.placeAtPc (op, b1, b2)).fetchInstr = decodeInstr op b1 b2 := by
  rw [State.fetchInstr, fetchByte_zero_placeAtPc op b1 b2 hs, fetchByte_one_placeAtPc op b1 b2 hs,
    fetchByte_two_placeAtPc op b1 b2 hs]

theorem instrLength_placeAtPc : (s.placeAtPc (op, b1, b2)).instrLength = opLength op := by
  rw [State.instrLength, fetchByte_zero_placeAtPc op b1 b2 hs]

end PlaceAtPc

/-- A step that is not faulted and does not overflow runs the fetched instruction (R81). -/
theorem stepUnder_eq_exec {p : PcOverflow} {s : State} (hf : s.faulted = false)
    (hlen : p = .wrap ∨ s.pc.toNat + s.instrLength ≤ 0xFFFF) : stepUnder p s = exec s.fetchInstr s := by
  rcases stepUnder_cases p s with ⟨hf', -⟩ | ⟨-, rfl, hover, -⟩ | ⟨-, -, e⟩
  · simp [hf] at hf'
  · exact absurd (hlen.resolve_left (by decide)) (Nat.not_le_of_lt hover)
  · exact e

/-- The caller's writes of three bytes from the pc on place them there (R142, R143). -/
theorem actsUnder_writeBytes_at_pc (p : PcOverflow) (s : State) (op b1 b2 : Byte) :
    actsUnder p [.writeByte s.pc op, .writeByte (s.pc + 1#16) b1, .writeByte (s.pc + 2#16) b2] s =
      .next (s.placeAtPc (op, b1, b2)) := by
  have h0 : s.instrAddr 0 = s.pc := by simp [State.instrAddr]
  rw [State.placeAtPc, h0]
  rfl

/-- Settles O38: the three writes are `placeAtPc`, whose bytes the next step decodes. -/
theorem callerWriteIsSeenByTheNextFetch : Obligations.CallerWriteIsSeenByTheNextFetch := by
  intro p s op b1 b2 hs hf hlen
  refine ⟨s.placeAtPc (op, b1, b2), actsUnder_writeBytes_at_pc p s op b1 b2, placeAtPc_pc s op b1 b2, ?_⟩
  have hf' : (s.placeAtPc (op, b1, b2)).faulted = false := hf
  rw [← instrLength_placeAtPc op b1 b2 hs, ← placeAtPc_pc s op b1 b2] at hlen
  rw [stepUnder_eq_exec hf' hlen, fetchInstr_placeAtPc op b1 b2 hs]

end Sys2Proof.Machine

/-! ### The two decode tables, both ways (R62 to R66) -/

namespace Sys2Proof

/-- The pp field that selects a pair (R63). -/
def pairField : Pair → BitVec 2
  | .bc => 0b00#2
  | .de => 0b01#2
  | .hl => 0b10#2

/-- The r field that selects an operand (R64). -/
def srcField : Src → BitVec 3
  | .b => 0b000#3
  | .c => 0b001#3
  | .d => 0b010#3
  | .e => 0b011#3
  | .h => 0b100#3
  | .l => 0b101#3
  | .memHL => 0b110#3
  | .a => 0b111#3

@[simp] theorem srcOfField_srcField (r : Src) : srcOfField (srcField r) = r := by cases r <;> rfl

@[simp] theorem srcField_srcOfField : ∀ x : BitVec 3, srcField (srcOfField x) = x := by decide

/-- The one byte that loads a pair (R62). -/
theorem decodePrimary_eq_loadImm16_iff {op : Byte} {p : Pair} :
    decodePrimary op = .loadImm16 p ↔ op = 0b00#2 ++ pairField p ++ 0b0001#4 := by
  cases p <;> revert op <;> decide

/-- The one byte that XORs an operand (R62, R64). -/
theorem decodePrimary_eq_xor_iff {op : Byte} {r : Src} :
    decodePrimary op = .xor r ↔ op = 0b10101#5 ++ srcField r := by
  cases r <;> revert op <;> decide

theorem decodePrimary_eq_unknown_iff {op : Byte} : decodePrimary op = .unknown ↔ isNamedOpcode op = false := by
  revert op; decide

/-- A byte is its fields of format P (R61). -/
theorem append_prefixed_fields : ∀ op : Byte, op.extractLsb' 6 2 ++ op.extractLsb' 3 3 ++ op.extractLsb' 0 3 = op := by
  decide

/-- The one prefixed opcode that tests a bit of an operand (R65). -/
theorem decodePrefixed_eq_bit_iff {op : Byte} {b : BitVec 3} {r : Src} :
    decodePrefixed op = .bit b r ↔ op = 0b01#2 ++ b ++ srcField r := by
  constructor
  · intro h
    unfold decodePrefixed at h
    split at h
    next htop =>
      obtain ⟨rfl, rfl⟩ := Prefixed.bit.inj h
      rw [srcField_srcOfField, ← htop, append_prefixed_fields]
    next => cases h
  · rintro rfl
    rw [decodePrefixed_bit, srcOfField_srcField]

theorem decodePrefixed_eq_unknown : ∀ op : Byte, op < 0x40#8 ∨ 0x7F#8 < op → decodePrefixed op = .unknown := by decide

/-! #### The length and the instruction, by what the primary table answers (R60, R62) -/

section Primary
variable {op : Byte} {p : Pair} {r : Src} (b1 b2 : Byte)

theorem opLength_of_loadImm16 (h : decodePrimary op = .loadImm16 p) : opLength op = 3 := by rw [opLength, h]
theorem opLength_of_xor (h : decodePrimary op = .xor r) : opLength op = 1 := by rw [opLength, h]
theorem opLength_of_unknown (h : decodePrimary op = .unknown) : opLength op = 1 := by rw [opLength, h]

theorem decodeInstr_of_loadImm16 (h : decodePrimary op = .loadImm16 p) :
    decodeInstr op b1 b2 = ldInstr p (wordOf b2 b1) := by rw [decodeInstr, h]
theorem decodeInstr_of_xor (h : decodePrimary op = .xor r) : decodeInstr op b1 b2 = xorInstr r := by rw [decodeInstr, h]
theorem decodeInstr_of_unknown (h : decodePrimary op = .unknown) :
    decodeInstr op b1 b2 = if op = 0x00#8 then .nop else .unknown op := by rw [decodeInstr, h]
@[simp] theorem decodeInstr_escape : decodeInstr 0xCB#8 b1 b2 = .escape b1 := by
  rw [decodeInstr, decodePrimary_escape]

end Primary

/-! #### The instruction of a prefixed opcode (R65, R106) -/

theorem prefixedInstr_of_bit {op : Byte} {b : BitVec 3} {r : Src} (h : decodePrefixed op = .bit b r) :
    prefixedInstr op = bitInstr b r := by rw [prefixedInstr, h]

theorem prefixedInstr_of_unknown {op : Byte} (h : decodePrefixed op = .unknown) : prefixedInstr op = cbNopInstr op := by
  rw [prefixedInstr, h]

theorem cbNopInstr_cases (op : Byte) : (∃ n, cbNopInstr op = .cbNopLow n) ∨ ∃ n, cbNopInstr op = .cbNopHigh n := by
  unfold cbNopInstr
  split
  · exact .inr ⟨_, rfl⟩
  · exact .inl ⟨_, rfl⟩

theorem prefixedInstr_cbNopLow : ∀ n : BitVec 6, prefixedInstr (0b00#2 ++ n) = .cbNopLow n := by decide
theorem prefixedInstr_cbNopHigh : ∀ n : BitVec 7, prefixedInstr (0b1#1 ++ n) = .cbNopHigh n := by decide

/-! ### The decoder of byte lists (log 14) -/

/-- A list with as many bytes as its first byte's length decodes (R60, R69). -/
theorem decodeBytes_of_le {op : Byte} {rest : List Byte} (h : opLength op ≤ rest.length + 1) :
    decodeBytes (op :: rest) =
      .ok ((decodeInstr op (rest.getD 0 0) (rest.getD 1 0)).resolve, rest.drop (opLength op - 1)) :=
  if_neg (Nat.not_lt_of_le h)

theorem decodeBytes_of_lt {op : Byte} {rest : List Byte} (h : rest.length + 1 < opLength op) :
    decodeBytes (op :: rest) = .error (.truncated op) := if_pos h

theorem opLength_le_of_decodeBytes {op : Byte} {rest : List Byte} {x : Instr × List Byte}
    (h : decodeBytes (op :: rest) = .ok x) : opLength op ≤ rest.length + 1 := by
  by_contra hlt
  rw [decodeBytes_of_lt (Nat.lt_of_not_le hlt)] at h
  cases h

section DecodeBytes
variable {op : Byte} (rest : List Byte)

theorem decodeBytes_loadImm16 {p : Pair} (h : decodePrimary op = .loadImm16 p) (lo hi : Byte) :
    decodeBytes (op :: lo :: hi :: rest) = .ok (ldInstr p (wordOf hi lo), rest) := by
  have hlen := opLength_of_loadImm16 h
  rw [decodeBytes_of_le (by simp [hlen]), decodeInstr_of_loadImm16 _ _ h, resolve_ldInstr, hlen]
  rfl

theorem decodeBytes_xor {r : Src} (h : decodePrimary op = .xor r) :
    decodeBytes (op :: rest) = .ok (xorInstr r, rest) := by
  have hlen := opLength_of_xor h
  rw [decodeBytes_of_le (by simp [hlen]), decodeInstr_of_xor _ _ h, resolve_xorInstr, hlen]
  rfl

theorem decodeBytes_escape (op : Byte) : decodeBytes (0xCB#8 :: op :: rest) = .ok (prefixedInstr op, rest) := by
  rw [decodeBytes_of_le (by simp), decodeInstr_escape, resolve_escape, opLength_escape]
  rfl

theorem decodeBytes_unknown (h : decodePrimary op = .unknown) :
    decodeBytes (op :: rest) = .ok (if op = 0x00#8 then .nop else .unknown op, rest) := by
  have hlen := opLength_of_unknown h
  rw [decodeBytes_of_le (by simp [hlen]), decodeInstr_of_unknown _ _ h, hlen]
  split <;> rfl

end DecodeBytes

/-- Everything the decoder can read: a load with its two bytes, an XOR, the escape with the prefixed opcode after it, or an
unknown byte (R61, R62). -/
theorem decodeBytes_cases {bytes rest : List Byte} {i : Instr} (h : decodeBytes bytes = .ok (i, rest)) :
    (∃ op p lo hi, decodePrimary op = .loadImm16 p ∧ bytes = op :: lo :: hi :: rest ∧ i = ldInstr p (wordOf hi lo)) ∨
    (∃ op r, decodePrimary op = .xor r ∧ bytes = op :: rest ∧ i = xorInstr r) ∨
    (∃ op, bytes = 0xCB#8 :: op :: rest ∧ i = prefixedInstr op) ∨
    (∃ op, decodePrimary op = .unknown ∧ bytes = op :: rest ∧ i = if op = 0x00#8 then .nop else .unknown op) := by
  cases bytes with
  | nil => cases h
  | cons op tail =>
    have hlen := opLength_le_of_decodeBytes h
    cases hd : decodePrimary op with
    | loadImm16 p =>
      rw [opLength_of_loadImm16 hd] at hlen
      obtain _ | ⟨lo, _ | ⟨hi, tail⟩⟩ := tail
      · simp at hlen
      · simp at hlen
      · cases (decodeBytes_loadImm16 tail hd lo hi).symm.trans h
        exact .inl ⟨op, p, lo, hi, hd, rfl, rfl⟩
    | xor r =>
      cases (decodeBytes_xor tail hd).symm.trans h
      exact .inr (.inl ⟨op, r, hd, rfl, rfl⟩)
    | escape =>
      obtain rfl := Machine.decodePrimary_eq_escape hd
      rw [opLength_escape] at hlen
      obtain _ | ⟨op, tail⟩ := tail
      · simp at hlen
      · cases (decodeBytes_escape tail op).symm.trans h
        exact .inr (.inr (.inl ⟨op, rfl, rfl⟩))
    | unknown =>
      cases (decodeBytes_unknown tail hd).symm.trans h
      exact .inr (.inr (.inr ⟨op, hd, rfl, rfl⟩))

/-! ### The encoder, by family (R61 to R66) -/

theorem encode_ldInstr (p : Pair) (d16 : Word) : encode (ldInstr p d16) = encodeLd (pairField p) d16 := by
  cases p <;> rfl

theorem encode_xorInstr (r : Src) : encode (xorInstr r) = encodeXor (srcField r) := by cases r <;> rfl

theorem encode_bitInstr (b : BitVec 3) (r : Src) : encode (bitInstr b r) = encodeBit b (srcField r) := by
  cases r <;> rfl

theorem encode_cbNopInstr : ∀ op : Byte, decodePrefixed op = .unknown → encode (cbNopInstr op) = [0xCB#8, op] := by
  decide

theorem encode_prefixedInstr (op : Byte) : encode (prefixedInstr op) = [0xCB#8, op] := by
  cases hd : decodePrefixed op with
  | bit b r => rw [prefixedInstr_of_bit hd, encode_bitInstr, encodeBit, ← decodePrefixed_eq_bit_iff.1 hd]
  | unknown => rw [prefixedInstr_of_unknown hd, encode_cbNopInstr op hd]

/-- A well-formed instruction other than the bare escape: what the decoder can answer. -/
def Instr.Decodable (i : Instr) : Prop := i.wellFormed = true ∧ ∀ op, i ≠ .escape op

theorem decodable_ldInstr (p : Pair) (d16 : Word) : (ldInstr p d16).Decodable := by cases p <;> exact ⟨rfl, nofun⟩
theorem decodable_xorInstr (r : Src) : (xorInstr r).Decodable := by cases r <;> exact ⟨rfl, nofun⟩
theorem decodable_bitInstr (b : BitVec 3) (r : Src) : (bitInstr b r).Decodable := by cases r <;> exact ⟨rfl, nofun⟩

theorem decodable_cbNopInstr (op : Byte) : (cbNopInstr op).Decodable := by
  rcases cbNopInstr_cases op with ⟨n, h⟩ | ⟨n, h⟩ <;> rw [h] <;> exact ⟨rfl, nofun⟩

theorem decodable_prefixedInstr (op : Byte) : (prefixedInstr op).Decodable := by
  cases hd : decodePrefixed op with
  | bit b r => exact prefixedInstr_of_bit hd ▸ decodable_bitInstr b r
  | unknown => exact prefixedInstr_of_unknown hd ▸ decodable_cbNopInstr op

/-- The catch-all row holds the bytes the primary table does not name, but for 0x00 (R110). -/
theorem wellFormed_unknown_iff {op : Byte} :
    (Instr.unknown op).wellFormed = true ↔ decodePrimary op = .unknown ∧ op ≠ 0x00#8 := by
  rw [decodePrimary_eq_unknown_iff]
  simp [Instr.wellFormed, isCatchAllOpcode]

/-! ### Decode of encode and encode of decode -/

/-- The decoder reads an encoding back, whatever follows it. -/
theorem decodeBytes_encode {i : Instr} (hi : i.Decodable) (rest : List Byte) :
    decodeBytes (encode i ++ rest) = .ok (i, rest) := by
  obtain ⟨hwf, hesc⟩ := hi
  rcases instr_family i with ⟨p, d16, rfl⟩ | ⟨r, rfl⟩ | ⟨b, r, rfl⟩ | ⟨n, rfl⟩ | ⟨n, rfl⟩ | rfl | ⟨op, rfl⟩ | ⟨op, rfl⟩
  · have hd := decodePrimary_eq_loadImm16_iff (p := p).2 rfl
    have h := decodeBytes_loadImm16 rest hd (loByte d16) (hiByte d16)
    rw [Machine.wordOf_hiByte_loByte] at h
    rwa [encode_ldInstr]
  · rw [encode_xorInstr]
    exact decodeBytes_xor rest (decodePrimary_eq_xor_iff.2 rfl)
  · rw [← prefixedInstr_of_bit (decodePrefixed_eq_bit_iff.2 rfl), encode_prefixedInstr]
    exact decodeBytes_escape rest _
  · rw [← prefixedInstr_cbNopLow n, encode_prefixedInstr]
    exact decodeBytes_escape rest _
  · rw [← prefixedInstr_cbNopHigh n, encode_prefixedInstr]
    exact decodeBytes_escape rest _
  · exact decodeBytes_unknown rest (by decide)
  · obtain ⟨hd, h0⟩ := wellFormed_unknown_iff.1 hwf
    have h := decodeBytes_unknown rest hd
    rwa [if_neg h0] at h
  · exact absurd rfl (hesc op)

/-- Settles O14: by family, the table's answer on the encoded first byte, and on the second after an escape. -/
theorem decodingAnEncodedInstructionGivesItBack : Obligations.DecodingAnEncodedInstructionGivesItBack :=
  ⟨fun _ rest hwf hesc => decodeBytes_encode ⟨hwf, hesc⟩ rest,
    fun op b2 rest => ⟨decodeBytes_escape rest op, decodeInstr_escape op b2⟩⟩

/-- What the decoder reads, encoded, is the bytes it read. -/
theorem encode_of_decodeBytes {bytes rest : List Byte} {i : Instr} (h : decodeBytes bytes = .ok (i, rest)) :
    i.Decodable ∧ encode i ++ rest = bytes := by
  rcases decodeBytes_cases h with ⟨op, p, lo, hi, hd, rfl, rfl⟩ | ⟨op, r, hd, rfl, rfl⟩ | ⟨op, rfl, rfl⟩ | ⟨op, hd, rfl, rfl⟩
  · refine ⟨decodable_ldInstr p _, ?_⟩
    rw [encode_ldInstr, encodeLd, Machine.loByte_wordOf, Machine.hiByte_wordOf, ← decodePrimary_eq_loadImm16_iff.1 hd]
    rfl
  · refine ⟨decodable_xorInstr r, ?_⟩
    rw [encode_xorInstr, encodeXor, ← decodePrimary_eq_xor_iff.1 hd]
    rfl
  · exact ⟨decodable_prefixedInstr op, by rw [encode_prefixedInstr]; rfl⟩
  · by_cases h0 : op = 0x00#8
    · rw [if_pos h0, h0]
      exact ⟨⟨rfl, nofun⟩, rfl⟩
    · rw [if_neg h0]
      exact ⟨⟨wellFormed_unknown_iff.2 ⟨hd, h0⟩, nofun⟩, rfl⟩

/-- Settles O15: for each shape of list the decoder reads, its table's one byte for what it answers. -/
theorem encodingADecodedInstructionGivesItsBytes : Obligations.EncodingADecodedInstructionGivesItsBytes := by
  intro bytes i rest h
  obtain ⟨⟨hwf, hesc⟩, henc⟩ := encode_of_decodeBytes h
  exact ⟨hwf, hesc, henc⟩

end Sys2Proof

/-! ### The tables byte by byte (R60 to R66) -/

namespace Sys2Proof

/-- The bytes with a property are 256 less those without it, given as a set of numbers. -/
theorem length_filter_bytes {P : Byte → Prop} [DecidablePred P] {s : Finset Nat} (hs : s ⊆ Finset.range 256)
    (h : ∀ op : Byte, P op ↔ op.toNat ∉ s) :
    ((List.range 256).filter fun n => P (BitVec.ofNat 8 n)).length = 256 - s.card := by
  have hnat : ∀ n < 256, P (BitVec.ofNat 8 n) ↔ n ∉ s := fun n hn => by
    rw [h, BitVec.toNat_ofNat, Nat.mod_eq_of_lt hn]
  calc ((List.range 256).filter fun n => P (BitVec.ofNat 8 n)).length
      = ((Finset.range 256).filter fun n => P (BitVec.ofNat 8 n)).card := rfl
    _ = (Finset.range 256 \ s).card := by
        rw [Finset.sdiff_eq_filter, Finset.filter_congr fun n hn => hnat n (Finset.mem_range.1 hn)]
    _ = 256 - s.card := by rw [Finset.card_sdiff_of_subset hs, Finset.card_range]

theorem decodePrimary_eq_unknown : ∀ op : Byte, op ∉ [0x01#8, 0x11#8, 0x21#8, 0xCB#8] → op < 0xA8#8 ∨ 0xAF#8 < op →
    decodePrimary op = .unknown := by decide

/-- The 12 named bytes are the three loads, the escape, and the eight XORs (R62). -/
theorem length_primary_unknown :
    ((List.range 256).filter fun n => decodePrimary (BitVec.ofNat 8 n) = .unknown).length = 244 :=
  length_filter_bytes (P := (decodePrimary · = .unknown)) (s := {0x01, 0x11, 0x21, 0xCB} ∪ Finset.Icc 0xA8 0xAF)
    (by decide) (by decide)

/-- Settles O9: the named bytes one by one, the others by `decodePrimary_eq_unknown`, and the instructions by what the
table answers. -/
theorem primaryTableByteByByte : Obligations.PrimaryTableByteByByte := by
  have hbc : decodePrimary 0x01#8 = .loadImm16 .bc := by decide
  have hde : decodePrimary 0x11#8 = .loadImm16 .de := by decide
  have hhl : decodePrimary 0x21#8 = .loadImm16 .hl := by decide
  refine ⟨hbc, hde, hhl, by decide, by decide, decodePrimary_escape, decodePrimary_eq_unknown,
    length_primary_unknown, fun b1 b2 => ⟨decodeInstr_of_loadImm16 b1 b2 hbc, decodeInstr_of_loadImm16 b1 b2 hde,
      decodeInstr_of_loadImm16 b1 b2 hhl, decodeInstr_escape b1 b2, fun _ => decodeInstr_of_unknown b1 b2⟩⟩

/-- Settles O10: both opcodes by the laws of their tables, and each operand by its form. -/
theorem rFieldSelectsTheOperand : Obligations.RFieldSelectsTheOperand := by
  refine ⟨decodePrimary_xor, decodePrefixed_bit, fun s => ⟨?_, rfl⟩⟩
  simp only [Machine.regFields, List.forall_mem_cons, List.not_mem_nil, false_imp_iff, implies_true, and_true]
  exact ⟨rfl, rfl, rfl, rfl, rfl, rfl, rfl⟩

theorem ofNat_bit_fields : ∀ b r : BitVec 3, BitVec.ofNat 8 (0x40 + 8 * b.toNat + r.toNat) = 0b01#2 ++ b ++ r := by
  decide

/-- Two prefixed opcodes with the same BIT are the same byte (R65). -/
theorem eq_of_decodePrefixed_eq {x y : Byte} (hx : decodePrefixed x ≠ .unknown)
    (h : decodePrefixed x = decodePrefixed y) : x = y := by
  cases hd : decodePrefixed x with
  | bit b r => rw [decodePrefixed_eq_bit_iff.1 hd, decodePrefixed_eq_bit_iff.1 (h.symm.trans hd)]
  | unknown => exact absurd hd hx

/-- The 64 bytes that are not the catch-all's are BIT's (R65). -/
theorem length_prefixed_unknown :
    ((List.range 256).filter fun n => decodePrefixed (BitVec.ofNat 8 n) = .unknown).length = 192 :=
  length_filter_bytes (P := (decodePrefixed · = .unknown)) (s := Finset.Icc 0x40 0x7F) (by decide) (by decide)

/-- Settles O11: BIT by `decodePrefixed_bit`, the catch-all by its two ranges, and byte lists by `decodeBytes_escape`. -/
theorem prefixedTableByteByByte : Obligations.PrefixedTableByteByByte := by
  refine ⟨fun b r => ?_, decodePrefixed_eq_unknown, length_prefixed_unknown, fun _ _ => eq_of_decodePrefixed_eq,
    fun op rest => ⟨fun b r hd => ?_, fun hd => ⟨cbNopInstr op, ?_, cbNopInstr_cases op⟩⟩⟩
  · rw [ofNat_bit_fields, decodePrefixed_bit]
  · rw [decodeBytes_escape, prefixedInstr_of_bit hd]
  · rw [decodeBytes_escape, prefixedInstr_of_unknown hd]

/-! ### Lengths and truncated lists (R60, R69) -/

theorem opLength_ld : ∀ op ∈ [0x01#8, 0x11#8, 0x21#8], opLength op = 3 := by decide

theorem opLength_other : ∀ op : Byte, op ∉ [0x01#8, 0x11#8, 0x21#8, 0xCB#8] → opLength op = 1 := by decide

/-- The length of an encoding is the one its first byte gives, for each instruction (R60). -/
theorem encodedLength : ∀ i, Laws.EncodedLength.Statement i
  | .ldBC d16 => Laws.EncodedLength.ldBC d16
  | .ldDE d16 => Laws.EncodedLength.ldDE d16
  | .ldHL d16 => Laws.EncodedLength.ldHL d16
  | .xorB => Laws.EncodedLength.xorB
  | .xorC => Laws.EncodedLength.xorC
  | .xorD => Laws.EncodedLength.xorD
  | .xorE => Laws.EncodedLength.xorE
  | .xorH => Laws.EncodedLength.xorH
  | .xorL => Laws.EncodedLength.xorL
  | .xorMem => Laws.EncodedLength.xorMem
  | .xorA => Laws.EncodedLength.xorA
  | .escape op => Laws.EncodedLength.escape op
  | .bitB b => Laws.EncodedLength.bitB b
  | .bitC b => Laws.EncodedLength.bitC b
  | .bitD b => Laws.EncodedLength.bitD b
  | .bitE b => Laws.EncodedLength.bitE b
  | .bitH b => Laws.EncodedLength.bitH b
  | .bitL b => Laws.EncodedLength.bitL b
  | .bitMem b => Laws.EncodedLength.bitMem b
  | .bitA b => Laws.EncodedLength.bitA b
  | .cbNopLow n => Laws.EncodedLength.cbNopLow n
  | .cbNopHigh n => Laws.EncodedLength.cbNopHigh n
  | .nop => Laws.EncodedLength.nop
  | .unknown op => Laws.EncodedLength.unknown op

/-- The decoder consumes as many bytes as the first byte's length (R60). -/
theorem drop_opLength_of_decodeBytes {op : Byte} {rest after : List Byte} {i : Instr}
    (h : decodeBytes (op :: rest) = .ok (i, after)) : (op :: rest).drop (opLength op) = after := by
  obtain ⟨hpos, -⟩ := opLength_bounds op
  cases (decodeBytes_of_le (opLength_le_of_decodeBytes h)).symm.trans h
  rw [← Nat.sub_add_cancel hpos, List.drop_succ_cons, Nat.add_sub_cancel]

/-- Settles O12: the length by ranges of the first byte, each encoding's length, and the bytes the decoder drops. -/
theorem lengthComesFromTheFirstByte : Obligations.LengthComesFromTheFirstByte :=
  ⟨opLength_ld, opLength_escape, opLength_other, encodedLength, fun _ _ _ _ => drop_opLength_of_decodeBytes⟩

/-- Settles O13: the decoder's one check is of the list's length. -/
theorem onlyTruncatedBytesAreRefused : Obligations.OnlyTruncatedBytesAreRefused :=
  fun _ _ => ⟨fun h => ⟨_, decodeBytes_of_le h⟩, decodeBytes_of_lt⟩

/-- Settles O16: each list is the encoding of its instruction, and the bytes after it. -/
theorem specWordsDecodeToTheirInstructions : Obligations.SpecWordsDecodeToTheirInstructions :=
  ⟨decodeBytes_encode (i := .ldBC 0x1234#16) ⟨rfl, nofun⟩ [], decodeBytes_encode (i := .ldHL 0xBBAA#16) ⟨rfl, nofun⟩ [],
    decodeBytes_encode (i := .xorE) ⟨rfl, nofun⟩ [], decodeBytes_encode (i := .xorMem) ⟨rfl, nofun⟩ [],
    decodeBytes_encode (i := .bitH 7#3) ⟨rfl, nofun⟩ [], decodeBytes_encode (i := .bitMem 0#3) ⟨rfl, nofun⟩ [],
    decodeBytes_encode (i := .cbNopLow 0b111111#6) ⟨rfl, nofun⟩ [],
    decodeBytes_encode (i := .cbNopHigh 0b1001011#7) ⟨rfl, nofun⟩ [], decodeBytes_encode (i := .nop) ⟨rfl, nofun⟩ [],
    decodeBytes_encode (i := .unknown 0x31#8) ⟨rfl, nofun⟩ [0x00#8, 0xC0#8]⟩

end Sys2Proof

/-! ### The step in the source's own order (R67, R80 to R83) -/

namespace Sys2Proof.Machine

/-- An unknown byte has the one effect of a skip, whichever of its two instructions it is (R110; log 10). -/
theorem exec_decodeInstr_of_unknown (s : State) {op : Byte} (h : decodePrimary op = .unknown) (b1 b2 : Byte) :
    exec (decodeInstr op b1 b2) s = s.skipPrimary := by
  rw [decodeInstr_of_unknown _ _ h]
  split
  · exact exec_nop s
  · exact exec_unknown s op

section Advance
variable (s : State) (n : Nat)

theorem instrAddr_advance (k : Nat) : (s.advance n).instrAddr k = s.instrAddr (n + k) := by
  simp [State.instrAddr, BitVec.ofNat_add, BitVec.add_assoc]

@[simp] theorem memRead_advance (x : Word) : (s.advance n).memRead x = s.memRead x := rfl

/-- An operand is the same before and after a move of the pc (R83). -/
@[simp] theorem readSrc_advance (r : Src) : (s.advance n).readSrc r = s.readSrc r := by cases r <;> rfl

theorem write16_advance (q : Pair) (v : Word) : (s.advance n).write16 q v = (s.write16 q v).advance n := by
  cases q <;> rfl

theorem bitFlags_advance (x : Byte) (b : BitVec 3) : (s.advance n).bitFlags x b = (s.bitFlags x b).advance n := rfl

end Advance

section Handlers
variable (s : State)

/-- A load's handler fetches the bytes the decoder takes with the opcode (R90; log 5). -/
theorem handleLd16_eq (q : Pair) : s.handleLd16 q = s.loadImm16 q (wordOf (s.fetchByte 2) (s.fetchByte 1)) := by
  rw [State.handleLd16, State.loadImm16, advance_advance, write16_advance, memRead_advance, instrAddr_advance]
  rfl

/-- The escape's handler runs what the prefixed table gives the byte after it (R105; log 13). -/
theorem handleEscape_finish : s.handleEscape.finish = execEscape (s.fetchByte 1) s := by
  have hfetch : (s.advance 1).memRead (s.advance 1).pc = s.fetchByte 1 := rfl
  rw [State.handleEscape, hfetch, execEscape]
  cases decodePrefixed (s.fetchByte 1) with
  | bit b r =>
    show ((s.advance 1).bitFlags ((s.advance 1).readSrc r) b).finish = execPrefixedBit b r s
    rw [readSrc_advance, bitFlags_advance, execPrefixedBit_eq, State.bitTest]
  | unknown => exact (execPrefixedNop_eq s _).symm

/-- The handler of the opcode at the pc, then the universal advance, is the fetched instruction's effect. -/
theorem handle_finish : s.handle.finish = exec s.fetchInstr s := by
  rw [State.handle, State.fetchInstr, fetchByte_zero]
  cases hd : decodePrimary (s.memRead s.pc) with
  | loadImm16 q => rw [decodeInstr_of_loadImm16 _ _ hd, exec_ldInstr, ← handleLd16_eq]
  | xor r => rw [decodeInstr_of_xor _ _ hd, exec_xorInstr]
  | escape =>
    rw [decodePrimary_eq_escape hd, decodeInstr_escape]
    exact handleEscape_finish s
  | unknown => exact (exec_decodeInstr_of_unknown s hd _ _).symm

end Handlers

/-- Settles O28: both steps have the same two guards, and past them `handle_finish`. -/
theorem sourceOrderStepAgrees : Obligations.SourceOrderStepAgrees := by
  intro p s
  rw [sourceStep, stepUnder, handle_finish, State.overflows, State.instrLength, fetchByte_zero]
  simp only [decide_eq_true_eq]

/-! ### The pc in a step and in a run (R60, R84, R86) -/

/-- An address of the instruction below the top of memory does not wrap (R81). -/
theorem instrAddr_toNat {s : State} {k : Nat} (h : s.pc.toNat + k ≤ 0xFFFF) :
    (s.instrAddr k).toNat = s.pc.toNat + k := by
  rw [State.instrAddr, BitVec.toNat_add, BitVec.toNat_ofNat]
  omega

/-- The fetched instruction moves the pc by its length (R86). -/
theorem exec_fetchInstr_pc {s t : State} (h : exec s.fetchInstr s = .next t) : t.pc = s.instrAddr s.instrLength := by
  rw [State.instrLength]
  rw [State.fetchInstr] at h
  cases hd : decodePrimary (s.fetchByte 0) with
  | loadImm16 q =>
    rw [decodeInstr_of_loadImm16 _ _ hd] at h
    cases next_unique h (exec_ldInstr_next s q _)
    rw [opLength_of_loadImm16 hd, advance_pc, State.instrAddr, write16_pc, State.instrAddr]
  | xor r =>
    rw [decodeInstr_of_xor _ _ hd] at h
    cases next_unique h (exec_xorInstr_next s r)
    rw [opLength_of_xor hd]
  | escape =>
    rw [decodePrimary_eq_escape hd, decodeInstr_escape] at h
    rw [decodePrimary_eq_escape hd, opLength_escape]
    rcases execEscape_cases s (s.fetchByte 1) with ⟨b, r, -, e⟩ | ⟨-, e⟩
    · cases next_unique h (e.trans (bitTest_finish s b r)); rfl
    · cases next_unique h (e.trans (skipPrefixed_eq s)); rfl
  | unknown =>
    rw [exec_decodeInstr_of_unknown s hd] at h
    cases next_unique h (skipPrimary_eq s)
    rw [opLength_of_unknown hd, advance_pc]

/-- Under `fault`, a step that does not end in the faulted state moves the pc by the instruction's length, without
wrapping (R84, R86). -/
theorem stepUnder_fault_pc {s t : State} (h : stepUnder .fault s = .next t) (ht : t.faulted = false) :
    t.pc.toNat = s.pc.toNat + s.instrLength := by
  rcases stepUnder_cases .fault s with ⟨hf, e⟩ | ⟨-, -, -, e⟩ | ⟨-, hlen, e⟩
  · cases next_unique h e
    cases hf.symm.trans ht
  · cases next_unique h e
    cases ht
  · rw [exec_fetchInstr_pc (e.symm.trans h), instrAddr_toNat (hlen.resolve_left (by decide))]

/-- A faulted state stays faulted as long as the caller only steps (R31, R124). -/
theorem runUnder_faulted {p : PcOverflow} {n : Nat} {s t : State} (hs : s.faulted = true)
    (h : runUnder p n s = .next t) : t.faulted = true := by
  have hexec : ∀ i s t, s.faulted = true → exec i s = .next t → t.faulted = true := fun i s t hs h => by
    obtain ⟨-, hf⟩ := exec_mem_faulted h
    exact hf.trans hs
  exact runUnder_preserves (P := fun s => s.faulted = true)
    (fun _ _ => stepUnder_preserves hexec fun _ _ _ => raisePcOverflow_faulted _) hs h

theorem runUnder_succ_of_next {p : PcOverflow} {n : Nat} {s u : State} (h : stepUnder p s = .next u) :
    runUnder p (n + 1) s = runUnder p n u := by
  rw [runUnder, h]

/-- A run's first step answers a state, and the rest of the run starts there (R88). -/
theorem exists_next_of_runUnder_succ {p : PcOverflow} {n : Nat} {s t : State} (h : runUnder p (n + 1) s = .next t) :
    ∃ u, stepUnder p s = .next u ∧ runUnder p n u = .next t := by
  rw [runUnder] at h
  split at h
  next u hu => exact ⟨u, hu, h⟩
  next => cases h
  next => cases h

/-- The result of a run is its last state, not faulted (R88). -/
theorem runUnder_of_runResult {p : PcOverflow} {n : Nat} {s t : State} (h : runResult p n s = .next t) :
    runUnder p n s = .next t ∧ t.faulted = false := by
  unfold runResult at h
  split at h
  next u hu =>
    split at h
    next => cases h
    next hf =>
      cases h
      exact ⟨hu, by simpa using hf⟩
  next => cases h
  next => cases h

/-- The bounds on the pc, step by step: no state before the last is faulted, since the last is not. -/
theorem runUnder_fault_pc_bounds {n : Nat} {s t : State} (h : runUnder .fault n s = .next t) (ht : t.faulted = false) :
    s.pc.toNat + n ≤ t.pc.toNat ∧ t.pc.toNat ≤ s.pc.toNat + 3 * n := by
  induction n generalizing s with
  | zero =>
    cases h
    exact ⟨Nat.le_refl _, Nat.le_refl _⟩
  | succ n ih =>
    obtain ⟨u, hu, hrun⟩ := exists_next_of_runUnder_succ h
    have huf : u.faulted = false := by
      by_contra hf
      cases (runUnder_faulted (by simpa using hf) hrun).symm.trans ht
    have hstep : u.pc.toNat = s.pc.toNat + s.instrLength := stepUnder_fault_pc hu huf
    have hlen : 1 ≤ s.instrLength ∧ s.instrLength ≤ 3 := opLength_bounds _
    have hrest := ih hrun
    omega

/-- Settles O34: by induction on the run, each step moving the pc by a length of one to three. -/
theorem runsMoveThePcUpward : Obligations.RunsMoveThePcUpward := by
  intro n s t h
  obtain ⟨hrun, ht⟩ := runUnder_of_runResult h
  exact runUnder_fault_pc_bounds hrun ht

/-! ### Unknown bytes (R69, R70, R110) -/

/-- An unknown byte that does not overflow moves the pc by 1 and does nothing else (R110). -/
theorem stepUnder_of_unknown {p : PcOverflow} {s : State} (hf : s.faulted = false)
    (hlen : p = .wrap ∨ s.pc.toNat + 1 ≤ 0xFFFF) (hd : decodePrimary (s.memRead s.pc) = .unknown) :
    stepUnder p s = .next (s.advance 1) := by
  rw [← fetchByte_zero] at hd
  rw [← opLength_of_unknown hd, ← State.instrLength] at hlen
  rw [stepUnder_eq_exec hf hlen, State.fetchInstr, exec_decodeInstr_of_unknown s hd, skipPrimary_eq]

/-- Settles O36: by induction on the number of unknown bytes, the first of them skipped by `stepUnder_of_unknown`. -/
theorem unknownBytesAreSkippedOneAtATime : Obligations.UnknownBytesAreSkippedOneAtATime := by
  intro p n
  induction n with
  | zero =>
    intro s _ _ _
    simp [runUnder]
  | succ n ih =>
    intro s hf htop hbytes
    have hfirst : decodePrimary (s.memRead s.pc) = .unknown := by simpa using hbytes 0 (by omega)
    have hpc : (s.advance 1).pc.toNat = s.pc.toNat + 1 := instrAddr_toNat (by omega)
    have hrest : ∀ k, k < n → decodePrimary ((s.advance 1).memRead ((s.advance 1).instrAddr k)) = .unknown := by
      intro k hk
      rw [memRead_advance, instrAddr_advance]
      exact hbytes (1 + k) (by omega)
    calc runUnder p (n + 1) s
        = runUnder p n (s.advance 1) :=
          runUnder_succ_of_next (stepUnder_of_unknown hf (.inr (by omega)) hfirst)
      _ = .next ((s.advance 1).advance n) := ih (s.advance 1) hf (by omega) hrest
      _ = .next (s.advance (n + 1)) := by rw [advance_advance, Nat.add_comm]

end Sys2Proof.Machine

/-! ### The outcome of a step (R81, R84, R86, R87) -/

namespace Sys2Proof.Machine

/-- No handler can fail (R87). -/
theorem exec_next (i : Instr) (s : State) : ∃ t, exec i s = .next t := by
  rcases exec_cases s i with ⟨_, _, -, e⟩ | ⟨_, -, e⟩ | ⟨_, _, -, e⟩ | ⟨-, e⟩ | ⟨-, e⟩
  all_goals exact ⟨_, e⟩

/-- The length of the instruction at the pc comes from the byte at the pc (R60). -/
theorem instrLength_eq (s : State) : s.instrLength = opLength (s.memRead s.pc) := by
  rw [State.instrLength, fetchByte_zero]

section Step
variable {p : PcOverflow} {s t : State}

/-- In the faulted state a step changes nothing (R124). -/
theorem stepUnder_of_faulted (p : PcOverflow) (hf : s.faulted = true) : stepUnder p s = .next s :=
  if_pos hf

/-- Under `fault` an instruction that overflows raises PcOverflow (R84). -/
theorem stepUnder_fault_of_overflow (hf : s.faulted = false) (hover : 0xFFFF < s.pc.toNat + s.instrLength) :
    stepUnder .fault s = .next s.raisePcOverflow := by
  rcases stepUnder_cases .fault s with ⟨hf', -⟩ | ⟨-, -, -, e⟩ | ⟨-, hlen, -⟩
  · cases hf.symm.trans hf'
  · exact e
  · exact absurd (hlen.resolve_left (by decide)) (Nat.not_le_of_lt hover)

/-- Every step completes (R87). -/
theorem stepUnder_next (p : PcOverflow) (s : State) : ∃ t, stepUnder p s = .next t := by
  rcases stepUnder_cases p s with ⟨-, e⟩ | ⟨-, -, -, e⟩ | ⟨-, -, e⟩
  · exact ⟨s, e⟩
  · exact ⟨s.raisePcOverflow, e⟩
  · obtain ⟨t, h⟩ := exec_next s.fetchInstr s
    exact ⟨t, e.trans h⟩

/-- Only the overflow check sets `faulted`, and only under `fault` (R84). -/
theorem overflow_of_stepUnder_faulted (hs : s.faulted = false) (h : stepUnder p s = .next t) (ht : t.faulted = true) :
    p = .fault ∧ 0xFFFF < s.pc.toNat + s.instrLength := by
  rcases stepUnder_cases p s with ⟨hf, -⟩ | ⟨-, hp, hover, -⟩ | ⟨-, -, e⟩
  · cases hs.symm.trans hf
  · exact ⟨hp, hover⟩
  · cases (exec_not_faulted _ s t hs (e.symm.trans h)).symm.trans ht

/-- A step that does not end in the faulted state moves the pc by the instruction's length, modulo 2^16 (R86). -/
theorem stepUnder_pc (h : stepUnder p s = .next t) (ht : t.faulted = false) : t.pc = s.instrAddr s.instrLength := by
  rcases stepUnder_cases p s with ⟨hf, e⟩ | ⟨-, -, -, e⟩ | ⟨-, -, e⟩
  · cases next_unique h e
    cases hf.symm.trans ht
  · cases next_unique h e
    cases ht
  · exact exec_fetchInstr_pc (e.symm.trans h)

end Step

/-- Settles O22: every family of instructions answers a next state with `faulted` kept, so a step that newly faults is the
overflow check's. -/
theorem everyStepCompletes : Obligations.EveryStepCompletes := by
  refine ⟨fun i s => ?_, fun p s => ?_⟩
  · obtain ⟨t, h⟩ := exec_next i s
    obtain ⟨-, hf⟩ := exec_mem_faulted h
    exact ⟨t, h, hf⟩
  · obtain ⟨t, h⟩ := stepUnder_next p s
    exact ⟨t, h, fun hs ht => instrLength_eq s ▸ overflow_of_stepUnder_faulted hs h ht⟩

/-- Settles O23: `stepUnder_pc` for either policy, and under `fault` no address below the check wraps. -/
theorem pcMovesByTheInstructionLength : Obligations.PcMovesByTheInstructionLength := by
  intro p s t _ h ht
  rw [← instrLength_eq]
  refine ⟨stepUnder_pc h ht, ?_⟩
  rintro rfl
  exact stepUnder_fault_pc h ht

/-! ### The top of the address space (R84) -/

/-- `A(k)` is pc + k modulo 2^16, on unbounded naturals (R8, R81). -/
theorem instrAddr_eq_ofNat (s : State) (k : Nat) : s.instrAddr k = BitVec.ofNat 16 ((s.pc.toNat + k) % 65536) := by
  apply BitVec.eq_of_toNat_eq
  rw [State.instrAddr, BitVec.toNat_add, BitVec.toNat_ofNat, BitVec.toNat_ofNat]
  omega

/-- In the faulted state any number of steps changes nothing (R124). -/
theorem runUnder_of_faulted (p : PcOverflow) (n : Nat) {s : State} (hf : s.faulted = true) :
    runUnder p n s = .next s := by
  induction n with
  | zero => rfl
  | succ n ih => exact (runUnder_succ_of_next (stepUnder_of_faulted p hf)).trans ih

/-- Settles O18: under `fault` the check raises PcOverflow and the faulted state then stays; under `wrap` the fetched
instruction runs, its addresses being pc + k modulo 2^16. -/
theorem topOfMemoryFollowsThePolicy : Obligations.TopOfMemoryFollowsThePolicy := by
  intro s hf hover
  rw [← instrLength_eq] at hover
  have hfault : stepUnder .fault s = .next s.raisePcOverflow := stepUnder_fault_of_overflow hf hover
  refine ⟨⟨hfault, fun n => (runUnder_succ_of_next hfault).trans (runUnder_of_faulted .fault n rfl)⟩, ?_⟩
  obtain ⟨t, h⟩ := stepUnder_next .wrap s
  have ht : t.faulted = false := stepUnder_wrap_not_faulted s t hf h
  refine ⟨t, h, ht, ?_, ?_⟩
  · rw [stepUnder_eq_exec hf (.inl rfl), State.fetchInstr, fetchByte_zero, ← instrAddr_eq_ofNat, ← instrAddr_eq_ofNat]
    rfl
  · rw [stepUnder_pc h ht, instrLength_eq, instrAddr_eq_ofNat]

/-! ### A step runs what the bytes at the pc decode to (R80, R81, R105) -/

/-- An escape runs the instruction of the prefixed table it stands for (R105). -/
theorem exec_prefixedInstr (op : Byte) (s : State) : exec (prefixedInstr op) s = exec (.escape op) s := by
  cases hd : decodePrefixed op with
  | bit b r => rw [prefixedInstr_of_bit hd, exec_escape_of_bit s hd]
  | unknown => rw [prefixedInstr_of_unknown hd, exec_cbNopInstr, skipPrefixed_eq, exec_escape_of_unknown s hd]

/-- Resolving an escape does not change what runs (log 13). -/
theorem exec_resolve (i : Instr) (s : State) : exec i.resolve s = exec i s := by
  cases i
  case escape op => exact exec_prefixedInstr op s
  all_goals rfl

/-- The decoder of byte lists reads, from the three bytes at the pc, the fetched instruction with its escape resolved. -/
theorem eq_resolve_fetchInstr_of_decodeBytes {s : State} {i : Instr} {rest : List Byte}
    (h : decodeBytes [s.memRead s.pc, s.memRead (s.pc + 1#16), s.memRead (s.pc + 2#16)] = .ok (i, rest)) :
    i = s.fetchInstr.resolve := by
  cases (decodeBytes_of_le (opLength_le_of_decodeBytes h)).symm.trans h
  rw [State.fetchInstr, fetchByte_zero]
  rfl

/-- Settles O17: the decoder answers well-formed instructions, and the fetched one with its escape resolved. -/
theorem stepRunsTheDecodedInstruction : Obligations.StepRunsTheDecodedInstruction := by
  refine ⟨fun s => rfl, fun p s i rest hf hlen h => ?_⟩
  obtain ⟨⟨hwf, -⟩, -⟩ := encode_of_decodeBytes h
  rw [← instrLength_eq] at hlen
  exact ⟨hwf, by rw [stepUnder_eq_exec hf hlen, eq_resolve_fetchInstr_of_decodeBytes h, exec_resolve]⟩

/-! ### Runs and their results (R84, R88, R124) -/

section Runs
variable {p : PcOverflow} {n : Nat} {s t : State}

/-- Every run answers a state (R88). -/
theorem runUnder_next (p : PcOverflow) (n : Nat) (s : State) : ∃ t, runUnder p n s = .next t := by
  induction n generalizing s with
  | zero => exact ⟨s, rfl⟩
  | succ n ih =>
    obtain ⟨u, hu⟩ := stepUnder_next p s
    rw [runUnder_succ_of_next hu]
    exact ih u

/-- A run goes on from the state a shorter one ends in (R88). -/
theorem runUnder_add (h : runUnder p n s = .next t) (m : Nat) : runUnder p (n + m) s = runUnder p m t := by
  induction n generalizing s with
  | zero =>
    cases h
    rw [Nat.zero_add]
  | succ n ih =>
    obtain ⟨u, hu, hrun⟩ := exists_next_of_runUnder_succ h
    rw [Nat.add_right_comm, runUnder_succ_of_next hu, ih hrun]

theorem runResult_of_not_faulted (h : runUnder p n s = .next t) (ht : t.faulted = false) :
    runResult p n s = .next t := by
  simp [runResult, h, ht]

theorem runResult_of_faulted (h : runUnder p n s = .next t) (ht : t.faulted = true) :
    runResult p n s = .fault .pcOverflow := by
  simp [runResult, h, ht]

/-- A run that a safe one continues is safe: a faulted state would have stayed faulted (R88, R124). -/
theorem safeRun_of_add {m : Nat} (hsafe : SafeRun p (n + m) s) : SafeRun p n s := by
  obtain ⟨u, hu⟩ := hsafe
  obtain ⟨hrun, hf⟩ := runUnder_of_runResult hu
  obtain ⟨t, h⟩ := runUnder_next p n s
  rw [runUnder_add h] at hrun
  cases ht : t.faulted with
  | false => exact ⟨t, runResult_of_not_faulted h ht⟩
  | true => cases (runUnder_faulted ht hrun).symm.trans hf

end Runs

/-- Settles O35: the run's last state gives its result, and the runs that continue it start there. -/
theorem runsHaveAResultUnlessFaulted : Obligations.RunsHaveAResultUnlessFaulted := by
  intro p n s
  obtain ⟨t, h⟩ := runUnder_next p n s
  exact ⟨t, h, runResult_of_not_faulted h, runResult_of_faulted h, runUnder_add h, fun _ => safeRun_of_add⟩

/-- Under `fault` a machine with at most `d` addresses from the pc up faults within `d` steps: each step faults, or moves the
pc up. -/
theorem exists_faulted_runUnder {d : Nat} {s : State} (hd : 65536 ≤ s.pc.toNat + d) :
    ∃ n t, n ≤ d ∧ runUnder .fault n s = .next t ∧ t.faulted = true := by
  induction d generalizing s with
  | zero => exact absurd s.pc.isLt (Nat.not_lt_of_le hd)
  | succ d ih =>
    obtain ⟨u, hu⟩ := stepUnder_next .fault s
    cases hf : u.faulted with
    | true => exact ⟨1, u, by omega, runUnder_succ_of_next hu, hf⟩
    | false =>
      have hpc : u.pc.toNat = s.pc.toNat + s.instrLength := stepUnder_fault_pc hu hf
      have hlen : 1 ≤ s.instrLength ∧ s.instrLength ≤ 3 := opLength_bounds _
      obtain ⟨n, t, hn, hrun, ht⟩ := ih (s := u) (by omega)
      exact ⟨n + 1, t, by omega, (runUnder_succ_of_next hu).trans hrun, ht⟩

/-- Settles O33: by induction on the number of addresses from the pc up. -/
theorem faultPolicyStopsWithinTheAddressSpace : Obligations.FaultPolicyStopsWithinTheAddressSpace :=
  fun _ => exists_faulted_runUnder (by omega)

/-! ### The memory a step's result depends on (R45, R85) -/

/-- The memory `m` reads as the state's own at each address of the list. -/
def State.ReadsAlike (s : State) (m : Memory) (addrs : List Word) : Prop :=
  ∀ a ∈ addrs, ({ s with mem := m } : State).memRead a = s.memRead a

/-- Every step reads the opcode byte (R45). -/
theorem instrAddr_zero_mem_stepReads (s : State) : s.instrAddr 0 ∈ s.stepReads := by
  unfold State.stepReads
  split
  case h_3 => split <;> exact List.mem_cons_self
  all_goals exact List.mem_cons_self

section ReadsAlike
variable {s t : State} {m : Memory}

theorem readsAlike_cons {a : Word} {addrs : List Word} :
    s.ReadsAlike m (a :: addrs) ↔ ({ s with mem := m } : State).memRead a = s.memRead a ∧ s.ReadsAlike m addrs :=
  List.forall_mem_cons

/-- An operand depends on the byte at HL for the (HL) form, and on no byte for a register (R64). -/
theorem readSrc_set_mem {r : Src} (h : s.ReadsAlike m (s.srcReads r)) :
    ({ s with mem := m } : State).readSrc r = s.readSrc r := by
  cases r
  case memHL => exact h _ (List.mem_singleton.2 rfl)
  all_goals rfl

theorem exec_ldInstr_set_mem {q : Pair} {d16 : Word} (h : exec (ldInstr q d16) s = .next t) :
    exec (ldInstr q d16) { s with mem := m } = .next { t with mem := m } := by
  cases next_unique h (exec_ldInstr_next s q d16)
  rw [exec_ldInstr_next]
  cases q <;> rfl

theorem exec_xorInstr_set_mem {r : Src} (hr : s.ReadsAlike m (s.srcReads r)) (h : exec (xorInstr r) s = .next t) :
    exec (xorInstr r) { s with mem := m } = .next { t with mem := m } := by
  cases next_unique h (exec_xorInstr_next s r)
  rw [exec_xorInstr_next, readSrc_set_mem hr]
  rfl

theorem exec_bitInstr_set_mem {b : BitVec 3} {r : Src} (hr : s.ReadsAlike m (s.srcReads r))
    (h : exec (bitInstr b r) s = .next t) :
    exec (bitInstr b r) { s with mem := m } = .next { t with mem := m } := by
  cases next_unique h (exec_bitInstr_next s b r)
  rw [exec_bitInstr_next, readSrc_set_mem hr]
  rfl

theorem exec_escape_set_mem {op : Byte} (hr : ∀ b r, decodePrefixed op = .bit b r → s.ReadsAlike m (s.srcReads r))
    (h : exec (.escape op) s = .next t) : exec (.escape op) { s with mem := m } = .next { t with mem := m } := by
  cases hd : decodePrefixed op with
  | bit b r =>
    rw [exec_escape_of_bit _ hd] at h ⊢
    exact exec_bitInstr_set_mem (hr b r hd) h
  | unknown =>
    cases next_unique h (exec_escape_of_unknown s hd)
    exact exec_escape_of_unknown _ hd

section StepReads
variable (hreads : s.ReadsAlike m s.stepReads)
include hreads

theorem fetchByte_zero_set_mem : ({ s with mem := m } : State).fetchByte 0 = s.fetchByte 0 :=
  hreads _ (instrAddr_zero_mem_stepReads s)

theorem instrLength_set_mem : ({ s with mem := m } : State).instrLength = s.instrLength :=
  congrArg opLength (fetchByte_zero_set_mem hreads)

/-- A load's step reads both bytes of d16 (R45). -/
theorem fetchByte_set_mem_of_loadImm16 {q : Pair} (hd : decodePrimary (s.fetchByte 0) = .loadImm16 q) :
    ({ s with mem := m } : State).fetchByte 1 = s.fetchByte 1 ∧
      ({ s with mem := m } : State).fetchByte 2 = s.fetchByte 2 := by
  simp only [State.stepReads, hd, readsAlike_cons] at hreads
  obtain ⟨-, hlo, hhi, -⟩ := hreads
  exact ⟨hlo, hhi⟩

/-- An XOR's step reads its operand (R45). -/
theorem readsAlike_srcReads_of_xor {r : Src} (hd : decodePrimary (s.fetchByte 0) = .xor r) :
    s.ReadsAlike m (s.srcReads r) := by
  simp only [State.stepReads, hd, readsAlike_cons] at hreads
  exact hreads.2

/-- An escape's step reads the prefixed opcode and, on a BIT, that one's operand (R45). -/
theorem fetchByte_one_set_mem_of_escape (hd : decodePrimary (s.fetchByte 0) = .escape) :
    ({ s with mem := m } : State).fetchByte 1 = s.fetchByte 1 ∧
      ∀ b r, decodePrefixed (s.fetchByte 1) = .bit b r → s.ReadsAlike m (s.srcReads r) := by
  cases hp : decodePrefixed (s.fetchByte 1) with
  | bit b r =>
    simp only [State.stepReads, hd, hp, readsAlike_cons] at hreads
    obtain ⟨-, hop, hr⟩ := hreads
    refine ⟨hop, ?_⟩
    rintro _ _ ⟨⟩
    exact hr
  | unknown =>
    simp only [State.stepReads, hd, hp, readsAlike_cons] at hreads
    obtain ⟨-, hop, -⟩ := hreads
    exact ⟨hop, nofun⟩

/-- The fetched instruction and its effect depend on the bytes R45 lists for it. -/
theorem exec_fetchInstr_set_mem (h : exec s.fetchInstr s = .next t) :
    exec ({ s with mem := m } : State).fetchInstr { s with mem := m } = .next { t with mem := m } := by
  rw [State.fetchInstr] at h ⊢
  rw [fetchByte_zero_set_mem hreads]
  cases hd : decodePrimary (s.fetchByte 0) with
  | loadImm16 q =>
    obtain ⟨hlo, hhi⟩ := fetchByte_set_mem_of_loadImm16 hreads hd
    rw [decodeInstr_of_loadImm16 _ _ hd] at h ⊢
    rw [hlo, hhi]
    exact exec_ldInstr_set_mem h
  | xor r =>
    rw [decodeInstr_of_xor _ _ hd] at h ⊢
    exact exec_xorInstr_set_mem (readsAlike_srcReads_of_xor hreads hd) h
  | escape =>
    obtain ⟨hop, hr⟩ := fetchByte_one_set_mem_of_escape hreads hd
    rw [decodePrimary_eq_escape hd, decodeInstr_escape] at h ⊢
    rw [hop]
    exact exec_escape_set_mem hr h
  | unknown =>
    rw [exec_decodeInstr_of_unknown _ hd] at h ⊢
    cases next_unique h (skipPrimary_eq s)
    rfl

end StepReads

end ReadsAlike

/-- Settles O25: the bytes R45 lists decide the length, and so which case of a step it is, and the fetched instruction and its
effect. -/
theorem stepDependsOnlyOnTheBytesItReads : Obligations.StepDependsOnlyOnTheBytesItReads := by
  intro p s m (hreads : s.ReadsAlike m s.stepReads) t h
  have hlength : ({ s with mem := m } : State).instrLength = s.instrLength := instrLength_set_mem hreads
  rcases stepUnder_cases p s with ⟨hf, e⟩ | ⟨hf, rfl, hover, e⟩ | ⟨hf, hlen, e⟩
  · cases next_unique h e
    exact stepUnder_of_faulted p hf
  · cases next_unique h e
    rw [← hlength] at hover
    exact stepUnder_fault_of_overflow hf hover
  · rw [← hlength] at hlen
    exact (stepUnder_eq_exec (s := { s with mem := m }) hf hlen).trans (exec_fetchInstr_set_mem hreads (e.symm.trans h))

end Sys2Proof.Machine

/-! ### Load-immediate-16, from its meaning and from its bytes in memory (R90) -/

namespace Sys2Proof.Machine

/-- A load-immediate-16 completes in every state, with R90's result and frame. -/
theorem loadsPair_exec_ldInstr (p : Pair) (d16 : Word) (s : State) : LoadsPair p d16 s (exec (ldInstr p d16) s) :=
  have hnext : exec (ldInstr p d16) s = .next ((s.write16 p d16).advance 3) := exec_ldInstr_next s p d16
  have hpc : (s.write16 p d16).pc + 3#16 = s.pc + 3#16 := congrArg (· + 3#16) (write16_pc s d16 p)
  ⟨_, hnext, read16_write16_same s p d16, exec_ldInstr_keepsCells hnext, keepsMemory_of_mem_eq (write16_mem s d16 p),
    write16_faulted s d16 p, hpc⟩

/-- Settles O39: the one rule of load-immediate-16, for each pair. -/
theorem loadImmediateResult : Obligations.LoadImmediateResult :=
  fun s d16 => ⟨loadsPair_exec_ldInstr .bc d16 s, loadsPair_exec_ldInstr .de d16 s, loadsPair_exec_ldInstr .hl d16 s⟩

/-- A step of an instruction of length `len` is the fault past the top of memory, and otherwise has the effect of the
fetched instruction (R81, R84). -/
theorem stepOr_of_exec_fetchInstr (p : PcOverflow) {len : Nat} {s : State} {eff : Result → Prop}
    (hf : s.faulted = false) (hlen : opLength (s.memRead s.pc) = len) (heff : eff (exec s.fetchInstr s)) :
    StepOr p len s eff := by
  rw [← instrLength_eq] at hlen
  subst hlen
  refine ⟨?_, fun hfits => ?_⟩
  · rintro rfl hover
    exact stepUnder_fault_of_overflow hf hover
  · rwa [stepUnder_eq_exec hf hfits]

/-- The three opcodes are those the primary table answers with a load-immediate-16 (R62). -/
theorem decodePrimary_of_mem_ldOpcodes : ∀ x ∈ ldOpcodes, decodePrimary x.1 = .loadImm16 x.2 := by decide

/-- The instruction fetched at a load-immediate-16 opcode takes the two bytes after it, the low one first (R40, R90). -/
theorem fetchInstr_of_loadImm16 {s : State} {q : Pair} (hd : decodePrimary (s.memRead s.pc) = .loadImm16 q) :
    s.fetchInstr = ldInstr q (s.memRead (s.pc + 2#16) ++ s.memRead (s.pc + 1#16)) := by
  rw [← fetchByte_zero] at hd
  exact decodeInstr_of_loadImm16 _ _ hd

/-- Settles O44: the opcode gives the length 3 and the instruction, whose effect `loadsPair_exec_ldInstr` states. -/
theorem loadImmediateStep : Obligations.LoadImmediateStep := by
  rintro p s hf ⟨op, q⟩ hx hop
  have hd : decodePrimary (s.memRead s.pc) = .loadImm16 q := hop ▸ decodePrimary_of_mem_ldOpcodes _ hx
  apply stepOr_of_exec_fetchInstr p hf (opLength_of_loadImm16 hd)
  rw [fetchInstr_of_loadImm16 hd]
  exact loadsPair_exec_ldInstr q _ s

end Sys2Proof.Machine

/-! ### Logical XOR, from its meaning and from its byte in memory (R95, R96) -/

namespace Sys2Proof.Machine

/-- An XOR completes in every state, with the result and the frame of R95 and R96. -/
theorem xorsIntoA_exec_xorInstr (s : State) (r : Src) : XorsIntoA (s.readSrc r) s (exec (xorInstr r) s) := by
  have hnext := exec_xorInstr_next s r
  obtain ⟨hz, hn, hh, hc⟩ := exec_xorInstr_flags hnext
  exact ⟨_, hnext, rfl, rfl, hz, hn, hh, hc, exec_xorInstr_keepsCells hnext, keepsMemory_of_mem_eq rfl, rfl, rfl⟩

/-- Settles O40: the one rule of XOR, for each operand. -/
theorem xorResult : Obligations.XorResult := fun s =>
  ⟨xorsIntoA_exec_xorInstr s .b, xorsIntoA_exec_xorInstr s .c, xorsIntoA_exec_xorInstr s .d, xorsIntoA_exec_xorInstr s .e,
    xorsIntoA_exec_xorInstr s .h, xorsIntoA_exec_xorInstr s .l, xorsIntoA_exec_xorInstr s .memHL,
    xorsIntoA_exec_xorInstr s .a⟩

/-- A step on the byte of an XOR has length 1 and that XOR's effect, the fault at the top of memory apart (R84). -/
theorem stepOr_xorsIntoA (p : PcOverflow) {s : State} {r : Src} (hf : s.faulted = false)
    (hd : decodePrimary (s.memRead s.pc) = .xor r) : StepOr p 1 s (XorsIntoA (s.readSrc r) s) := by
  have hfetch : s.fetchInstr = xorInstr r := decodeInstr_of_xor _ _ ((fetchByte_zero s).symm ▸ hd)
  apply stepOr_of_exec_fetchInstr p hf (opLength_of_xor hd)
  rw [hfetch]
  exact xorsIntoA_exec_xorInstr s r

/-- Settles O45: the r field names the operand, and the operand it names is the register's value (R64). -/
theorem xorRegisterStep : Obligations.XorRegisterStep := by
  intro p s hf x hx hop
  obtain ⟨hxor, -, hsrc⟩ := rFieldSelectsTheOperand
  obtain ⟨hreg, -⟩ := hsrc s
  rw [← hreg x hx]
  exact stepOr_xorsIntoA p hf (hop ▸ hxor x.1)

/-- Settles O46: 0xAE is the XOR byte whose r field, 110, names the memory byte at HL (R64). -/
theorem xorMemoryStep : Obligations.XorMemoryStep := by
  intro p s hf hop
  have hd : decodePrimary (s.memRead s.pc) = .xor .memHL := hop ▸ decodePrimary_xor 0b110#3
  exact stepOr_xorsIntoA p hf hd

end Sys2Proof.Machine

/-! ### Bit-test, from its meaning and from its bytes in memory (R100, R101) -/

namespace Sys2Proof.Machine

/-- BIT sets three flags, one bit of F each (R27, R100), so bits 3..0 of F stay. -/
theorem keepsLowNibble_bitFlags (s : State) (v : Byte) (b : BitVec 3) : KeepsLowNibble s (s.bitFlags v b) :=
  ((keepsLowNibble_setFlag _ .h true).trans (keepsLowNibble_setFlag _ .n false)).trans (keepsLowNibble_setFlag s .z _)

theorem exec_bitInstr_keepsLowNibble {s t : State} {b : BitVec 3} {r : Src} (h : exec (bitInstr b r) s = .next t) :
    KeepsLowNibble s t := by
  have hnext : exec (bitInstr b r) s = .next (((s.bitFlags (s.readSrc r) b).advance 1).advance 1) := exec_bitInstr s b r
  cases next_unique h hnext
  exact keepsLowNibble_bitFlags s (s.readSrc r) b

/-- Carry is the one flag BIT does not write (R28). -/
theorem exec_bitInstr_keepsFlags {s t : State} {b : BitVec 3} {r : Src} (h : exec (bitInstr b r) s = .next t) :
    KeepsFlags s t [.z, .n, .h] := by
  obtain ⟨-, -, -, hc⟩ := exec_bitInstr_flags h
  intro fl hfl
  cases fl
  case c => exact hc
  all_goals simp at hfl

/-- Where bits 3..0 of F are zero (R22), bits 4..0 are C << 4. -/
theorem lowFiveBits_of_lowNibble_zero {f : Byte} (h : f &&& 0x0F#8 = 0x00#8) :
    f &&& 0x1F#8 = if f.getLsbD (flagPos .c) then 0x10#8 else 0x00#8 := by
  revert f; decide

/-- A BIT completes in every state, with the flags and the frame of R100 and R101. -/
theorem testsBit_exec_bitInstr (s : State) (b : BitVec 3) (r : Src) :
    TestsBit (s.readSrc r) b s (exec (bitInstr b r) s) := by
  have hnext := exec_bitInstr_next s b r
  obtain ⟨hz, hn, hh, -⟩ := exec_bitInstr_flags hnext
  refine ⟨_, hnext, hz, hn, hh, exec_bitInstr_keepsFlags hnext, exec_bitInstr_keepsLowNibble hnext, fun hlow => ?_,
    exec_bitInstr_keepsCells hnext, keepsMemory_of_mem_eq rfl, rfl, rfl⟩
  rw [read8_f, lowFiveBits_of_lowNibble_zero hlow, State.getFlag]

/-- Settles O41: the one rule of BIT, for each operand. -/
theorem bitTestResult : Obligations.BitTestResult := fun s b =>
  ⟨testsBit_exec_bitInstr s b .b, testsBit_exec_bitInstr s b .c, testsBit_exec_bitInstr s b .d,
    testsBit_exec_bitInstr s b .e, testsBit_exec_bitInstr s b .h, testsBit_exec_bitInstr s b .l,
    testsBit_exec_bitInstr s b .memHL, testsBit_exec_bitInstr s b .a⟩

/-- The instruction fetched at the byte 0xCB is the escape with the byte after it (R71, R105). -/
theorem fetchInstr_of_escape {s : State} (hop : s.memRead s.pc = 0xCB#8) :
    s.fetchInstr = .escape (s.memRead (s.pc + 1#16)) := by
  rw [State.fetchInstr, fetchByte_zero, fetchByte_one, hop, decodeInstr_escape]

/-- A step on the escape and the byte of a BIT has length 2 and that BIT's effect, the fault at the top of memory apart
(R84, R105). -/
theorem stepOr_testsBit (p : PcOverflow) {s : State} {b : BitVec 3} {r : Src} (hf : s.faulted = false)
    (hop : s.memRead s.pc = 0xCB#8) (hd : decodePrefixed (s.memRead (s.pc + 1#16)) = .bit b r) :
    StepOr p 2 s (TestsBit (s.readSrc r) b s) := by
  have hlen : opLength (s.memRead s.pc) = 2 := hop ▸ opLength_escape
  apply stepOr_of_exec_fetchInstr p hf hlen
  rw [fetchInstr_of_escape hop, exec_escape_of_bit s hd]
  exact testsBit_exec_bitInstr s b r

/-- Settles O47: the r field names the operand, and the operand it names is the register's value (R64). -/
theorem bitRegisterStep : Obligations.BitRegisterStep := by
  intro p s b hf x hx hop hbit
  obtain ⟨-, -, hsrc⟩ := rFieldSelectsTheOperand
  obtain ⟨hreg, -⟩ := hsrc s
  rw [← hreg x hx]
  exact stepOr_testsBit p hf hop (hbit ▸ decodePrefixed_bit b x.1)

/-- Settles O48: the r field 110 names the memory byte at HL (R64). -/
theorem bitMemoryStep : Obligations.BitMemoryStep := by
  intro p s b hf hop hbit
  have hd : decodePrefixed (s.memRead (s.pc + 1#16)) = .bit b .memHL := hbit ▸ decodePrefixed_bit b 0b110#3
  exact stepOr_testsBit p hf hop hd

end Sys2Proof.Machine

/-! ### The prefixed escape and the no-ops, from their meanings and from their bytes in memory (R105, R106, R110) -/

namespace Sys2Proof.Machine

theorem skipsBytes_skipPrimary (s : State) : SkipsBytes 1 s s.skipPrimary := skipPrimary_eq s

theorem skipsBytes_skipPrefixed (s : State) : SkipsBytes 2 s s.skipPrefixed := skipPrefixed_eq s

/-- Settles O42: the two no-ops of each table are its one skip (log 10). -/
theorem noOpsMoveOnlyThePc : Obligations.NoOpsMoveOnlyThePc := fun s _ _ _ =>
  ⟨skipsBytes_skipPrimary s, skipsBytes_skipPrimary s, skipsBytes_skipPrefixed s, skipsBytes_skipPrefixed s⟩

/-- Settles O43: by what the prefixed table gives the byte; a bit-test has the frame `testsBit_exec_bitInstr` states, and a
no-op only moves the pc. -/
theorem escapeRunsThePrefixedInstruction : Obligations.EscapeRunsThePrefixedInstruction := by
  intro s op
  refine ⟨(exec_prefixedInstr op s).symm, ?_⟩
  cases hd : decodePrefixed op with
  | bit b r =>
    rw [exec_escape_of_bit s hd]
    obtain ⟨t, hnext, -, -, -, hflags, hlow, -, hcells, hmem, hfaulted, hpc⟩ := testsBit_exec_bitInstr s b r
    exact ⟨t, hnext, hpc, hcells, hflags, hlow, hmem, hfaulted⟩
  | unknown =>
    rw [exec_escape_of_unknown s hd]
    exact ⟨s.advance 2, rfl, advance_pc s 2, fun r _ => read8_advance s 2 r, keepsFlags_of_f_eq (advance_f s 2) _,
      congrArg (· &&& 0x0F#8) (advance_f s 2), keepsMemory_of_mem_eq (advance_mem s 2), advance_faulted s 2⟩

/-- Settles O49: the byte 0xCB gives the length 2 and fetches the escape, which runs what the prefixed table gives the next
byte. -/
theorem escapeStep : Obligations.EscapeStep := by
  intro p s hf hop
  have hlen : opLength (s.memRead s.pc) = 2 := hop ▸ opLength_escape
  apply stepOr_of_exec_fetchInstr p hf hlen
  rw [fetchInstr_of_escape hop]
  obtain ⟨-, t, hnext, hpc, -⟩ := escapeRunsThePrefixedInstruction s (s.memRead (s.pc + 1#16))
  exact ⟨fun _ _ => exec_escape_of_bit s, exec_escape_of_unknown s, t, hnext, hpc⟩

/-- What follows from an instruction's effect holds of its step too (R84). -/
theorem StepOr.imp {p : PcOverflow} {len : Nat} {s : State} {eff eff' : Result → Prop} (h : StepOr p len s eff)
    (himp : ∀ o, eff o → eff' o) : StepOr p len s eff' := by
  obtain ⟨hover, hfits⟩ := h
  exact ⟨hover, fun hlen => himp _ (hfits hlen)⟩

/-- Settles O50: the prefixed table names no byte outside 0x40..0x7F (R65), so the escape's step skips it. -/
theorem prefixedNoOpStep : Obligations.PrefixedNoOpStep := by
  intro p s hf hop hrange
  have hd : decodePrefixed (s.memRead (s.pc + 1#16)) = .unknown := decodePrefixed_eq_unknown _ hrange
  exact (escapeStep p s hf hop).imp fun _ ⟨_, hskip, _⟩ => hskip hd

end Sys2Proof.Machine

/-! ### Unknown bytes, from the byte in memory (R110) -/

namespace Sys2Proof.Machine

/-- Settles O51: the primary table names none of the 244 bytes (R62), so each has length 1 and the effect of a skip. -/
theorem unknownByteStep : Obligations.UnknownByteStep := by
  intro p s hf hnamed hrange
  have hd : decodePrimary (s.memRead s.pc) = .unknown := decodePrimary_eq_unknown _ hnamed hrange
  apply stepOr_of_exec_fetchInstr p hf (opLength_of_unknown hd)
  rw [← fetchByte_zero] at hd
  rw [State.fetchInstr, exec_decodeInstr_of_unknown s hd]
  exact skipsBytes_skipPrimary s

end Sys2Proof.Machine

/-! ### PcOverflow and the faulted state (R121, R124) -/

namespace Sys2Proof.Machine

section Fault
variable {p : PcOverflow} {s t : State}

/-- Under `fault` the overflow check alone decides whether a step faults (R84). -/
theorem stepUnder_fault_faulted_iff (hs : s.faulted = false) (h : stepUnder .fault s = .next t) :
    t.faulted = true ↔ 0xFFFF < s.pc.toNat + s.instrLength := by
  constructor
  · intro ht
    obtain ⟨-, hover⟩ := overflow_of_stepUnder_faulted hs h ht
    exact hover
  · intro hover
    cases next_unique h (stepUnder_fault_of_overflow hs hover)
    exact raisePcOverflow_faulted s

/-- A step that faults has raised PcOverflow, and so changes nothing but `faulted` (R124). -/
theorem eq_raisePcOverflow_of_stepUnder_faulted (hs : s.faulted = false) (h : stepUnder p s = .next t)
    (ht : t.faulted = true) : t = s.raisePcOverflow := by
  obtain ⟨rfl, hover⟩ := overflow_of_stepUnder_faulted hs h ht
  exact next_unique h (stepUnder_fault_of_overflow hs hover)

end Fault

/-- The last `len` addresses of memory. -/
def topAddresses (len : Nat) : List Word := (List.range len).map fun k => BitVec.ofNat 16 (0x10000 - len + k)

/-- An instruction passes 0xFFFF exactly from one of the last addresses, as many as its bytes (R121). -/
theorem overflow_iff_mem_topAddresses {pc : Word} {len : Nat} (hlen : len ≤ 0x10000) :
    0xFFFF < pc.toNat + len ↔ pc ∈ topAddresses len := by
  rw [topAddresses, List.mem_map]
  constructor
  · intro hover
    refine ⟨pc.toNat - (0x10000 - len), List.mem_range.mpr (by omega), BitVec.eq_of_toNat_eq ?_⟩
    rw [BitVec.toNat_ofNat]
    omega
  · rintro ⟨k, hk, rfl⟩
    rw [List.mem_range] at hk
    rw [BitVec.toNat_ofNat]
    omega

/-- Settles O19: a step faults from the last addresses of memory, as many as the length the first byte gives (R60), and
does so by raising PcOverflow. -/
theorem pcOverflowRaisedExactlyAtTheTop : Obligations.PcOverflowRaisedExactlyAtTheTop := by
  refine ⟨fun s t hs h => ?_, stepUnder_wrap_not_faulted⟩
  have hfaults : t.faulted = true ↔ s.pc ∈ topAddresses (opLength (s.memRead s.pc)) := by
    rw [← instrLength_eq]
    have hlen : 1 ≤ s.instrLength ∧ s.instrLength ≤ 3 := opLength_bounds _
    exact (stepUnder_fault_faulted_iff hs h).trans (overflow_iff_mem_topAddresses (by omega))
  refine ⟨fun hop => ?_, fun hop => ?_, fun hop => ?_, fun ht => ?_⟩
  · rw [hfaults, opLength_ld _ hop]
    rfl
  · rw [hfaults, hop, opLength_escape]
    rfl
  · rw [hfaults, opLength_other _ hop]
    exact List.mem_singleton
  · cases eq_raisePcOverflow_of_stepUnder_faulted hs h ht
    exact ⟨rfl, raisePcOverflow_pc s⟩

/-- The caller's actions keep the fault, save construction (R31, R124). -/
theorem faulted_of_actUnder {p : PcOverflow} {act : CallerAction} {s t : State} (hf : s.faulted = true)
    (h : actUnder p act s = .next t) : t.faulted = true ∨ (act = .construct ∧ t = State.reset) := by
  cases act with
  | construct => exact .inr ⟨rfl, next_unique h (actUnder_construct p s)⟩
  | writeByte a v => exact .inl (next_unique h (actUnder_writeByte p s a v) ▸ hf)
  | callStep => exact .inl (next_unique h (stepUnder_of_faulted p hf) ▸ hf)
  | observe => exact .inl (next_unique h (actUnder_observe p s) ▸ hf)
  | stop => exact .inl (next_unique h (actUnder_stop p s) ▸ hf)

/-- Settles O20: a faulting step raises PcOverflow, a faulted state stays as it is, and a result is not faulted. -/
theorem faultedStateIsStuckUntilReset : Obligations.FaultedStateIsStuckUntilReset := by
  refine ⟨fun _ _ _ => eq_raisePcOverflow_of_stepUnder_faulted, fun p n _ => runUnder_of_faulted p n,
    fun _ _ _ _ => faulted_of_actUnder, rfl, fun p n s t h => ?_⟩
  obtain ⟨-, ht⟩ := runUnder_of_runResult h
  exact ht

end Sys2Proof.Machine
